-- ==== Sys2Proof/Word.lean ====
section
/-! DEFINITION. The units of data of the framing core: the 8-bit byte (R9) and the 16-bit `length` field (R58). -/

namespace Sys2Proof

/-- "A byte is 8 bits" (R9); every transfer of the block is one byte (R45). -/
abbrev Byte := BitVec 8

/-- The width of the `length` field of a frame and of `F_LEN` (R5 LEN_BITS, R58). -/
abbrev Len := BitVec 16

end Sys2Proof
end

