-- ==== Sys2Proof/Config.lean ====
section
/-! DEFINITION. The constants the source fixes (00_scope.md R5), the two parameters it leaves to the implementation (R6), and the free values of the frame registers (R17, R34, U3). -/

namespace Sys2Proof

/-- `SYNC`: the sync marker, first byte of every frame (R5, R56). -/
abbrev syncByte : Byte := 0xAA#8

/-- `HDR_LEN`: bytes of sync, kind and the two length bytes (R5). -/
abbrev hdrLen : Nat := 4

/-- `CSUM_LEN`: bytes of checksum (R5). -/
abbrev csumLen : Nat := 1

/-- `MIN_FRAME`: the length of a frame with an empty payload (R5). -/
abbrev minFrame : Nat := 5

/-- `MAX_PAYLOAD`: the largest payload length (R5). -/
abbrev maxPayload : Nat := 65535

/-- `MAX_FRAME`: the largest frame length (R5). -/
abbrev maxFrame : Nat := 65540

/-- `BUF_CAP` (R6): a capacity in bytes, or `INF`, no bound. -/
inductive BufCap where
  | finite (n : Nat)
  | inf
deriving DecidableEq, Repr

/-- A `BUF_CAP` below 65540 is no configuration of this block (R6, U10). -/
def BufCap.admissible : BufCap → Bool
  | .finite n => decide (maxFrame ≤ n)
  | .inf => true

/-- The parameters of one instance of the block (R6); an inadmissible pair is no value of the type (U10).
DESIGN CHOICE (log entry 6, safe): the instance's parameters stand in State, so that a statement over every state is one over every configuration. -/
structure Config where
  bufCap : BufCap
  plenW : Nat
  bufCapOk : bufCap.admissible = true
  plenWOk : 17 ≤ plenW
deriving DecidableEq, Repr

/-- The defaults of R6: `BUF_CAP = 65540`, `PLEN_W = 32`. -/
def Config.default : Config where
  bufCap := .finite maxFrame
  plenW := 32
  bufCapOk := by decide
  plenWOk := by decide

/-- Is there room in a buffer of `n` bytes for `k` more (R41, R140)? Always, where `BUF_CAP = INF`. -/
def BufCap.hasRoom : BufCap → Nat → Nat → Bool
  | .finite c, n, k => decide (n + k ≤ c)
  | .inf, _, _ => true

/-- Free value (R17, U3; log entry 8, safe): what `F_KIND` holds while there is no frame. -/
opaque Config.freeKind : Nat → Byte

/-- Free value (R17, U3; log entry 8, safe): what `F_LEN` holds while there is no frame. -/
opaque Config.freeLen : Nat → Len

/-- Free value (R18, U3; log entry 8, safe): what `F_PAYLOAD` holds while there is no frame. -/
opaque Config.freePayload : Nat → List Byte

end Sys2Proof
end

