-- ==== Sys2Proof/Syntax.lean ====
section
/-! DEFINITION. The operations of the block and the wire frames, one constructor per row of spec/opcode_table.json. -/

namespace Sys2Proof

/-- The eleven values of `kind` the project names (R62). -/
inductive NamedKind where
  | tick | transport | voices | midiIn | ccState | debug
  | play | stop | record | tempo | reqState
deriving DecidableEq, Repr

/-- Which way frames of a kind travel, a convention of the host (R62). -/
inductive Direction where
  | inbound | outbound
deriving DecidableEq, Repr

/-- Every row of the opcode table. The first eight are the operations and reserved codes of R65.
The frame rows are the wire frame of R55 with any kind or a named one; their operands are the payload bytes
(whose number is the `length` field, R58) and the transmitted checksum byte. -/
inductive Instr where
  | reset
  | csClr
  | csFold (b : Byte)
  | enc (kind : Byte) (payload : List Byte)
  | decPush (b : Byte)
  | decTry
  | reserved6
  | reserved7
  | frame (kind : Byte) (payload : List Byte) (checksum : Byte)
  | frameTick (payload : List Byte) (checksum : Byte)
  | frameTransport (payload : List Byte) (checksum : Byte)
  | frameVoices (payload : List Byte) (checksum : Byte)
  | frameMidiIn (payload : List Byte) (checksum : Byte)
  | frameCcState (payload : List Byte) (checksum : Byte)
  | frameDebug (payload : List Byte) (checksum : Byte)
  | framePlay (payload : List Byte) (checksum : Byte)
  | frameStop (payload : List Byte) (checksum : Byte)
  | frameRecord (payload : List Byte) (checksum : Byte)
  | frameTempo (payload : List Byte) (checksum : Byte)
  | frameReqState (payload : List Byte) (checksum : Byte)
deriving DecidableEq, Repr

end Sys2Proof
end

