-- ==== Sys2Proof/Machine/Operands.lean ====
section
/-! DEFINITION. Operand forms and their assembly from bytes: the `length` field (R58), ENC's count (R66, R68), the kind table (R62), the frame layout (R55). -/

namespace Sys2Proof

/-- `length-low = n[7:0]` (R58). -/
def lenLo (n : Nat) : Byte := BitVec.ofNat 8 n

/-- `length-high = n[15:8]` (R58). -/
def lenHi (n : Nat) : Byte := BitVec.ofNat 8 (n / 256)

/-- `length = byte[2] | (byte[3] << 8)`, little-endian on the wire (R39, R58). -/
def lenOf (lo hi : Byte) : Len := lo.setWidth 16 ||| (hi.setWidth 16 <<< 8)

/-- `total = 4 + length + 1` without wrap-around (R61, D25). -/
def totalOf (length : Len) : Nat := hdrLen + length.toNat + csumLen

/-- Byte `k` of ENC's 32-bit little-endian count (R68). -/
def countByte (k n : Nat) : Byte := BitVec.ofNat 8 (n / 256 ^ k)

/-- ENC's count from its four bytes, `n0` first (R68). -/
def countOf (n0 n1 n2 n3 : Byte) : Nat :=
  n0.toNat + 256 * n1.toNat + 65536 * n2.toNat + 16777216 * n3.toNat

/-- Can the host present this operation? ENC's count is an unsigned `PLEN_W`-bit number (R66). -/
def Instr.presentable (c : Config) : Instr → Bool
  | .enc _ payload => decide (payload.length < 2 ^ c.plenW)
  | _ => true

/-- The wire bytes of a candidate (R55): sync, kind, length low byte first, payload, checksum. -/
def wireFrame (kind : Byte) (payload : List Byte) (checksum : Byte) : List Byte :=
  [syncByte, kind, lenLo payload.length, lenHi payload.length] ++ payload ++ [checksum]

/-- The value of a named kind (R62). -/
def kindCode : NamedKind → Byte
  | .tick => 0x01#8
  | .transport => 0x02#8
  | .voices => 0x03#8
  | .midiIn => 0x04#8
  | .ccState => 0x05#8
  | .debug => 0xFF#8
  | .play => 0x80#8
  | .stop => 0x81#8
  | .record => 0x82#8
  | .tempo => 0x83#8
  | .reqState => 0x90#8

/-- The name a value of `kind` has in the table of R62, if any. -/
def kindOfByte (b : Byte) : Option NamedKind :=
  if b = 0x01#8 then some .tick
  else if b = 0x02#8 then some .transport
  else if b = 0x03#8 then some .voices
  else if b = 0x04#8 then some .midiIn
  else if b = 0x05#8 then some .ccState
  else if b = 0xFF#8 then some .debug
  else if b = 0x80#8 then some .play
  else if b = 0x81#8 then some .stop
  else if b = 0x82#8 then some .record
  else if b = 0x83#8 then some .tempo
  else if b = 0x90#8 then some .reqState
  else none

/-- The direction column of R62; the block never looks at it (D24). -/
def kindDirection : NamedKind → Direction
  | .tick => .inbound
  | .transport => .inbound
  | .voices => .inbound
  | .midiIn => .inbound
  | .ccState => .inbound
  | .debug => .inbound
  | .play => .outbound
  | .stop => .outbound
  | .record => .outbound
  | .tempo => .outbound
  | .reqState => .outbound

end Sys2Proof
end

