-- ==== Sys2Proof/Decode.lean ====
section
/-! DEFINITION. Reading an operation from command-record bytes (R68) or a frame from its wire bytes (R55), the encoder of both, and the opcode table's word (R76). -/

namespace Sys2Proof

/-- Why bytes are no record. -/
inductive DecodeError where
  /-- No byte at all. -/
  | empty
  /-- The first byte is neither an OPSEL code with bits 7 to 3 zero (R68) nor the sync byte (R56). -/
  | notARecord (first : Byte)
  /-- The record's operand bytes are not all there. -/
  | truncated
deriving DecidableEq, Repr

/-- What decoding answers: an operation and the bytes after its record, or a rejection by name. -/
inductive Decoded where
  | ok (i : Instr) (rest : List Byte)
  | bad (e : DecodeError)
deriving DecidableEq, Repr

/-- One operand byte `b` (R68: `02 b`, `04 b`). -/
def decodeByteOperand (mk : Byte → Instr) : List Byte → Decoded
  | b :: rest => .ok (mk b) rest
  | [] => .bad .truncated

/-- ENC's operands (R68): `kind n0 n1 n2 n3 payload[0] ... payload[n-1]`. -/
def decodeEnc : List Byte → Decoded
  | kind :: n0 :: n1 :: n2 :: n3 :: rest =>
    if rest.length < countOf n0 n1 n2 n3 then .bad .truncated
    else .ok (.enc kind (rest.take (countOf n0 n1 n2 n3))) (rest.drop (countOf n0 n1 n2 n3))
  | _ => .bad .truncated

/-- The row of the opcode table a frame of this kind belongs to (R62, R76). -/
def frameInstr (kind : Byte) (payload : List Byte) (checksum : Byte) : Instr :=
  match kindOfByte kind with
  | some .tick => .frameTick payload checksum
  | some .transport => .frameTransport payload checksum
  | some .voices => .frameVoices payload checksum
  | some .midiIn => .frameMidiIn payload checksum
  | some .ccState => .frameCcState payload checksum
  | some .debug => .frameDebug payload checksum
  | some .play => .framePlay payload checksum
  | some .stop => .frameStop payload checksum
  | some .record => .frameRecord payload checksum
  | some .tempo => .frameTempo payload checksum
  | some .reqState => .frameReqState payload checksum
  | none => .frame kind payload checksum

/-- A frame's bytes after its sync byte (R55): kind, length low, length high, `length` payload bytes, checksum. -/
def decodeFrame : List Byte → Decoded
  | kind :: lo :: hi :: body =>
    match body.drop (lenOf lo hi).toNat with
    | checksum :: rest => .ok (frameInstr kind (body.take (lenOf lo hi).toNat) checksum) rest
    | [] => .bad .truncated
  | _ => .bad .truncated

/-- What the first byte of a record selects (R65, R68), or a frame by its sync byte (R55; log entry 3). -/
def decodeAfter (op : Byte) (rest : List Byte) : Decoded :=
  if op = 0x00#8 then .ok .reset rest
  else if op = 0x01#8 then .ok .csClr rest
  else if op = 0x02#8 then decodeByteOperand .csFold rest
  else if op = 0x03#8 then decodeEnc rest
  else if op = 0x04#8 then decodeByteOperand .decPush rest
  else if op = 0x05#8 then .ok .decTry rest
  else if op = 0x06#8 then .ok .reserved6 rest
  else if op = 0x07#8 then .ok .reserved7 rest
  else if op = syncByte then decodeFrame rest
  else .bad (.notARecord op)

/-- The decoder of records, total on any bytes. -/
def decode : List Byte → Decoded
  | [] => .bad .empty
  | op :: rest => decodeAfter op rest

/-- The encoder: the record of an operation (R68), the wire bytes of a frame (R55). -/
def encode : Instr → List Byte
  | .reset => [0x00#8]
  | .csClr => [0x01#8]
  | .csFold b => [0x02#8, b]
  | .enc kind payload =>
    [0x03#8, kind, countByte 0 payload.length, countByte 1 payload.length, countByte 2 payload.length,
      countByte 3 payload.length] ++ payload
  | .decPush b => [0x04#8, b]
  | .decTry => [0x05#8]
  | .reserved6 => [0x06#8]
  | .reserved7 => [0x07#8]
  | .frame kind payload c => wireFrame kind payload c
  | .frameTick payload c => wireFrame (kindCode .tick) payload c
  | .frameTransport payload c => wireFrame (kindCode .transport) payload c
  | .frameVoices payload c => wireFrame (kindCode .voices) payload c
  | .frameMidiIn payload c => wireFrame (kindCode .midiIn) payload c
  | .frameCcState payload c => wireFrame (kindCode .ccState) payload c
  | .frameDebug payload c => wireFrame (kindCode .debug) payload c
  | .framePlay payload c => wireFrame (kindCode .play) payload c
  | .frameStop payload c => wireFrame (kindCode .stop) payload c
  | .frameRecord payload c => wireFrame (kindCode .record) payload c
  | .frameTempo payload c => wireFrame (kindCode .tempo) payload c
  | .frameReqState payload c => wireFrame (kindCode .reqState) payload c

/-- The low `k` bytes of `w`, lowest first. -/
def lowBytes : Nat → Nat → List Byte
  | 0, _ => []
  | k + 1, w => BitVec.ofNat 8 w :: lowBytes k (w / 256)

/-- The bytes a word of the opcode table stands for (log entry 14): a 32-bit `FRAME` word has wire byte 0 in bits
31 to 24 (R76); any other width has its first byte in bits 7 to 0. -/
def tableBytes (nbits w : Nat) : List Byte :=
  if nbits = 32 then (lowBytes 4 w).reverse else lowBytes ((nbits + 7) / 8) w

/-- The length of the record that begins with these bytes, bytes not given read as zero (R61, R68). -/
def recordLength (bs : List Byte) : Nat :=
  if bs.getD 0 0 = 0x02#8 then 2
  else if bs.getD 0 0 = 0x03#8 then 6 + countOf (bs.getD 2 0) (bs.getD 3 0) (bs.getD 4 0) (bs.getD 5 0)
  else if bs.getD 0 0 = 0x04#8 then 2
  else if bs.getD 0 0 = syncByte then totalOf (lenOf (bs.getD 2 0) (bs.getD 3 0))
  else 1

/-- A word of the opcode table as a whole record: every byte above the word's is zero. -/
def tableRecord (nbits w : Nat) : List Byte :=
  tableBytes nbits w ++
    List.replicate (recordLength (tableBytes nbits w) - (tableBytes nbits w).length) 0#8

/-- What the decoder reads from a word of the opcode table. -/
def decodeTableWord (nbits w : Nat) : Option Instr :=
  match decode (tableRecord nbits w) with
  | .ok i _ => some i
  | .bad _ => none

end Sys2Proof
end

