-- ==== Sys2Proof/Machine/State.lean ====
section
/-! DEFINITION. The architectural state (10_state.md R13, R30, R33), its reset value, and the reasons a step can stop. -/

namespace Sys2Proof.Machine

/-- The state between two operations. There is no program counter (R19) and no hidden state (R27). -/
structure State where
  /-- The parameters of this instance (R6); no operation writes them (R23). -/
  cfg : Config
  /-- `CS_ACC`, 8 bits (R14). -/
  csAcc : Byte
  /-- `BUF`, head first (R15, R35). -/
  buf : List Byte
  /-- `F_VALID`, 1 bit (R16). -/
  fValid : Bool
  /-- `F_KIND`, 8 bits (R17). -/
  fKind : Byte
  /-- `F_LEN`, 16 bits (R17). -/
  fLen : Len
  /-- `F_PAYLOAD` (R18). -/
  fPayload : List Byte
  /-- `D_WHY`, 3 bits (R20). -/
  dWhy : BitVec 3
  /-- `X_CODE`, 2 bits (R21). -/
  xCode : BitVec 2
  /-- `TX`, all bytes emitted, oldest first (R33; log entry 11). -/
  tx : List Byte
  /-- The model's own: the index of the next free value of the frame registers (log entry 8). -/
  freeIdx : Nat
  /-- The model's own: the records of the operations the host has still to issue (R68; log entries 3 and 4). -/
  trace : List Byte
deriving DecidableEq, Repr

/-- Reasons a read of the block's outputs is a fault of the host. -/
inductive Fault where
  /-- Raised by `readFrame` alone: the host reads F_KIND, F_LEN or F_PAYLOAD while F_VALID = 0 (R34; log entry 13). Safe. -/
  | frameReadWhileInvalid
deriving DecidableEq, Repr

/-- Reasons a step has no meaning for what the host presents. -/
inductive Refusal where
  /-- Raised by exec's arms for an instruction that has no meaning yet; no arm is left. Safe. -/
  | notModelled (mnemonic : String)
  /-- Raised by `fetch`: the first byte of the trace begins no record of R68 and no frame (log entry 5). Safe. -/
  | notARecord (first : Byte)
  /-- Raised by `fetch`: the trace ends inside a record (log entry 5). Safe. -/
  | truncatedRecord
  /-- Raised by `fetch`: the count of an ENC does not fit the PLEN_W bits of the count operand (R66; log entry 7). Safe. -/
  | countNotPresentable
deriving DecidableEq, Repr

/-- The reset state of R30. `F_KIND`, `F_LEN`, `F_PAYLOAD` are unspecified there: free values, never a chosen one
(R34; DESIGN CHOICE, log entry 9, safe). -/
def State.reset : State where
  cfg := Config.default
  csAcc := 0x00#8
  buf := []
  fValid := false
  fKind := Config.freeKind 0
  fLen := Config.freeLen 0
  fPayload := Config.freePayload 0
  dWhy := 0#3
  xCode := 0#2
  tx := []
  freeIdx := 1
  trace := []

end Sys2Proof.Machine
end

