-- ==== Sys2Proof/Machine/Flags.lean ====
section
/-! DEFINITION. Every flag and status value: the exits and their D_WHY codes (R20), the X_CODE codes (R138), the derived outputs (R24), the decoder's condition (R121). -/

namespace Sys2Proof.Machine

/-- The six exits of a DEC_TRY (R108). -/
inductive Exit where
  | short | noSync | shortSync | incomplete | frame | resync
deriving DecidableEq, Repr

/-- The D_WHY code of an exit (R20). -/
def exitCode : Exit → BitVec 3
  | .short => 0#3
  | .noSync => 1#3
  | .shortSync => 2#3
  | .incomplete => 3#3
  | .frame => 4#3
  | .resync => 5#3

/-- X_CODE 0, `OK` (R138). -/
def xOk : BitVec 2 := 0#2

/-- X_CODE 1, `ENC_TOO_LONG` (R138, R139). -/
def xEncTooLong : BitVec 2 := 1#2

/-- X_CODE 2, `RX_FULL` (R138, R140). -/
def xRxFull : BitVec 2 := 2#2

/-- X_CODE 3, `BAD_OP` (R138, R141). -/
def xBadOp : BitVec 2 := 3#2

/-- `BLEN = |BUF|` (R24). -/
def blen (s : State) : Nat := s.buf.length

/-- `BUF_EMPTY` (R24). -/
def bufEmpty (s : State) : Bool := decide (blen s = 0)

/-- `BUF_FULL = (BLEN = BUF_CAP)`, never so where `BUF_CAP = INF` (R24). -/
def bufFull (s : State) : Bool :=
  match s.cfg.bufCap with
  | .finite c => decide (blen s = c)
  | .inf => false

/-- The four conditions of the decoder between operations (R121). -/
inductive Condition where
  | empty | hunting | header | payload
deriving DecidableEq, Repr

/-- The decoder's condition, a function of BUF alone (R121). -/
def condition : List Byte → Condition
  | [] => .empty
  | b :: bs =>
    if b ≠ syncByte then .hunting
    else if (b :: bs).length < minFrame then .header
    else .payload

end Sys2Proof.Machine
end

