-- ==== Sys2Proof/Machine/Ops.lean ====
section
/-! DEFINITION. The named operations over the buffer, the streams and the registers (00_scope.md R11), the checksum function (R77), what stands for taking an exception (R148), and the fetch of the host's next operation. -/

namespace Sys2Proof.Machine

/-- `xorfold(s)`: the exclusive-or fold with seed 0 and no final change (R77). -/
def xorfold (bs : List Byte) : Byte := bs.foldl (fun acc b => acc ^^^ b) 0x00#8

/-- `s[i:j]`, the half-open slice (R10). -/
def slice (bs : List Byte) (i j : Nat) : List Byte := (bs.take j).drop i

/-- `MemRead(a, 1) = BUF[a]`, in range only (R40). -/
def memRead1 (bs : List Byte) (a : Nat) (h : a + 1 ≤ bs.length) : Byte := bs[a]

/-- `MemRead(a, 2) = BUF[a] | (BUF[a+1] << 8)`, in range only (R40). -/
def memRead2 (bs : List Byte) (a : Nat) (h : a + 2 ≤ bs.length) : Len := lenOf bs[a] bs[a + 1]

/-- `BufAppend(b)`: `BUF <- BUF ++ [b]` (R41). -/
def bufAppend (b : Byte) (bs : List Byte) : List Byte := bs ++ [b]

/-- `BufDrop(n)`: `BUF <- BUF[n:]` (R42). -/
def bufDrop (n : Nat) (bs : List Byte) : List Byte := bs.drop n

/-- The offset of the first `0xAA` (R10, R99, R100). -/
def firstSync : List Byte → Option Nat
  | [] => none
  | b :: bs => if b = syncByte then some 0 else (firstSync bs).map (· + 1)

/-- `Emit(bs)`: append to TX in order (R38). -/
def emit (bs : List Byte) (s : State) : State := { s with tx := s.tx ++ bs }

/-- The operation completes: `X_CODE <- 0` (R12). -/
def complete (s : State) : State := { s with xCode := xOk }

/-- `raise X`: what stands for trap entry. X_CODE takes the code; nothing else is saved, switched or written (R148).
There is no return beside it: the next operation overwrites X_CODE (R149). -/
def raise (code : BitVec 2) (s : State) : State := { s with xCode := code }

/-- The frame registers take unspecified values (R17, R18, R34): the free values at the state's index, which moves on. -/
def forgetFrame (s : State) : State :=
  { s with
    fKind := Config.freeKind s.freeIdx
    fLen := Config.freeLen s.freeIdx
    fPayload := Config.freePayload s.freeIdx
    freeIdx := s.freeIdx + 1 }

/-- A decoded frame as the frame registers hold it (R17, R18; C10). -/
structure Frame where
  kind : Byte
  length : Len
  payload : List Byte
deriving DecidableEq, Repr

/-- What the host reads from the frame registers: the frame while F_VALID = 1, a fault of the host otherwise (R34; log entry 13). -/
def readFrame (s : State) : Except Fault Frame :=
  if s.fValid then .ok ⟨s.fKind, s.fLen, s.fPayload⟩ else .error .frameReadWhileInvalid

/-- What the command port presents. -/
inductive Fetched where
  /-- The host issues no operation. -/
  | idle
  /-- The host issues this operation; its records after it are the rest. -/
  | op (i : Instr) (rest : List Byte)
  /-- What stands next is no operation the host can present. -/
  | stop (r : Refusal)
deriving DecidableEq, Repr

/-- The host's next operation, read from its records (R65, R68; log entries 3 to 5 and 7). -/
def fetch (s : State) : Fetched :=
  match decode s.trace with
  | .ok i rest => if i.presentable s.cfg then .op i rest else .stop .countNotPresentable
  | .bad .empty => .idle
  | .bad (.notARecord b) => .stop (.notARecord b)
  | .bad .truncated => .stop .truncatedRecord

end Sys2Proof.Machine
end

