-- ==== Sys2Proof/Machine/Checksum.lean ====
section
/-! DEFINITION. The checksum unit CS: CS_CLR and CS_FOLD (40_checksum.md). -/

namespace Sys2Proof.Machine

/-- `CS_CLR` (R79): `CS_ACC <- 0x00`. -/
def execCsClr (s : State) : Host.Outcome State Fault Refusal :=
  .next (complete { s with csAcc := 0x00#8 })

/-- `CS_FOLD b` (R80): `CS_ACC <- CS_ACC ^ b`. -/
def execCsFold (b : Byte) (s : State) : Host.Outcome State Fault Refusal :=
  .next (complete { s with csAcc := s.csAcc ^^^ b })

end Sys2Proof.Machine
end

