-- ==== Sys2Proof/Machine/Decoder.lean ====
section
/-! DEFINITION. The frame decoder DEC: DEC_PUSH and DEC_TRY (42_decoder.md), and DEC_APPEND (R71) over DEC_PUSH. -/

namespace Sys2Proof.Machine

/-- `DEC_PUSH b` on the state (R96): refused with RX_FULL when `BLEN = BUF_CAP` (R140). -/
def pushByte (b : Byte) (s : State) : State :=
  if bufFull s then raise xRxFull s
  else complete { s with buf := bufAppend b s.buf }

/-- What one decode attempt decides from the buffer: its exit, how many bytes leave the head, the frame at exit FRAME. -/
structure Attempt where
  exit : Exit
  dropped : Nat
  frame : Option Frame
deriving DecidableEq, Repr

/-- Steps 3 to 6 of R107 on `S = B[i:]`, the buffer from its first sync. -/
def attemptFrom (i : Nat) (S : List Byte) : Attempt :=
  if h5 : S.length < minFrame then ⟨.shortSync, i, none⟩
  else
    let kind := memRead1 S 1 (Nat.le_trans (by decide) (Nat.le_of_not_lt h5))
    let length := memRead2 S 2 (Nat.le_trans (by decide) (Nat.le_of_not_lt h5))
    if hc : S.length < totalOf length then ⟨.incomplete, i, none⟩
    else
      let expected := xorfold (slice S 1 (4 + length.toNat))
      let transmitted := memRead1 S (4 + length.toNat) (Nat.le_of_not_lt hc)
      if expected = transmitted then
        ⟨.frame, i + totalOf length, some ⟨kind, length, slice S 4 (4 + length.toNat)⟩⟩
      else ⟨.resync, i + 1, none⟩

/-- `tryDecode`, the decision of one DEC_TRY, a pure function of the buffer (R97, R107). -/
def tryDecode (B : List Byte) : Attempt :=
  if B.length < minFrame then ⟨.short, 0, none⟩
  else match firstSync B with
    | none => ⟨.noSync, B.length, none⟩
    | some i => attemptFrom i (bufDrop i B)

/-- The registers a DEC_TRY writes from its attempt (R31, R107): the frame registers hold the frame at exit FRAME and
are unspecified at every other exit (R17). -/
def writeAttempt (a : Attempt) (s : State) : State :=
  match a.frame with
  | some f =>
    { s with
      buf := bufDrop a.dropped s.buf, fValid := true, dWhy := exitCode a.exit
      fKind := f.kind, fLen := f.length, fPayload := f.payload }
  | none =>
    forgetFrame { s with buf := bufDrop a.dropped s.buf, fValid := false, dWhy := exitCode a.exit }

/-- `DEC_TRY` on the state (R107): it always completes. -/
def tryOnce (s : State) : State := complete (writeAttempt (tryDecode s.buf) s)

/-- `DEC_APPEND` (R71): push the bytes in order; where a push is refused the expansion stops there. -/
def decAppend : List Byte → State → State
  | [], s => s
  | b :: bs, s => if bufFull s then raise xRxFull s else decAppend bs (pushByte b s)

/-- `DEC_PUSH b` (R96). -/
def execDecPush (b : Byte) (s : State) : Host.Outcome State Fault Refusal := .next (pushByte b s)

/-- `DEC_TRY` (R97, R107). -/
def execDecTry (s : State) : Host.Outcome State Fault Refusal := .next (tryOnce s)

end Sys2Proof.Machine
end

