-- ==== Sys2Proof/Machine/Encoder.lean ====
section
/-! DEFINITION. The frame encoder ENC (41_encoder.md). -/

namespace Sys2Proof.Machine

/-- The bytes a frame's checksum covers: kind, the two length bytes, the payload (R60, R82). -/
def coveredBytes (kind : Byte) (payload : List Byte) : List Byte :=
  [kind, lenLo payload.length, lenHi payload.length] ++ payload

/-- The frame ENC builds (R87). -/
def encFrame (kind : Byte) (payload : List Byte) : List Byte :=
  wireFrame kind payload (xorfold (coveredBytes kind payload))

/-- `ENC kind, payload` (R86 to R89): the length test first, then one Emit of the whole frame. -/
def execEnc (kind : Byte) (payload : List Byte) (s : State) : Host.Outcome State Fault Refusal :=
  if maxPayload < payload.length then .next (raise xEncTooLong s)
  else .next (complete (emit (encFrame kind payload) s))

end Sys2Proof.Machine
end

