-- ==== Sys2Proof/Machine/Frames.lean ====
section
/-! DEFINITION. The FRAME rows of the opcode table: a wire frame arrives (R55, R62, R107). -/

namespace Sys2Proof.Machine

/-- A candidate's bytes arrive on RX in wire order and one decode attempt is made: DEC_APPEND (R71) and then, unless a push
was refused, DEC_TRY (R107). DESIGN CHOICE (log entries 1 and 2): the table gives the frame a row and R107 as its rule, but
no operation of its own. -/
def receiveFrame (bytes : List Byte) (s : State) : State :=
  if (decAppend bytes s).xCode = xRxFull then decAppend bytes s
  else tryOnce (decAppend bytes s)

/-- `FRAME`, any kind (R55, R57). -/
def execFrame (kind : Byte) (payload : List Byte) (checksum : Byte) (s : State) : Host.Outcome State Fault Refusal :=
  .next (receiveFrame (wireFrame kind payload checksum) s)

/-- `FRAME.TICK`: the frame of kind `TICK` (R62); the block treats it like any other (R57). -/
def execFrameTick (payload : List Byte) (checksum : Byte) (s : State) : Host.Outcome State Fault Refusal :=
  .next (receiveFrame (wireFrame (kindCode .tick) payload checksum) s)

/-- `FRAME.TRANSPORT`: the frame of kind `TRANSPORT` (R62); the block treats it like any other (R57). -/
def execFrameTransport (payload : List Byte) (checksum : Byte) (s : State) : Host.Outcome State Fault Refusal :=
  .next (receiveFrame (wireFrame (kindCode .transport) payload checksum) s)

/-- `FRAME.VOICES`: the frame of kind `VOICES` (R62); the block treats it like any other (R57). -/
def execFrameVoices (payload : List Byte) (checksum : Byte) (s : State) : Host.Outcome State Fault Refusal :=
  .next (receiveFrame (wireFrame (kindCode .voices) payload checksum) s)

/-- `FRAME.MIDI_IN`: the frame of kind `MIDI_IN` (R62); the block treats it like any other (R57). -/
def execFrameMidiIn (payload : List Byte) (checksum : Byte) (s : State) : Host.Outcome State Fault Refusal :=
  .next (receiveFrame (wireFrame (kindCode .midiIn) payload checksum) s)

/-- `FRAME.CC_STATE`: the frame of kind `CC_STATE` (R62); the block treats it like any other (R57). -/
def execFrameCcState (payload : List Byte) (checksum : Byte) (s : State) : Host.Outcome State Fault Refusal :=
  .next (receiveFrame (wireFrame (kindCode .ccState) payload checksum) s)

/-- `FRAME.DEBUG`: the frame of kind `DEBUG` (R62); the block treats it like any other (R57). -/
def execFrameDebug (payload : List Byte) (checksum : Byte) (s : State) : Host.Outcome State Fault Refusal :=
  .next (receiveFrame (wireFrame (kindCode .debug) payload checksum) s)

/-- `FRAME.PLAY`: the frame of kind `PLAY` (R62); the block treats it like any other (R57). -/
def execFramePlay (payload : List Byte) (checksum : Byte) (s : State) : Host.Outcome State Fault Refusal :=
  .next (receiveFrame (wireFrame (kindCode .play) payload checksum) s)

/-- `FRAME.STOP`: the frame of kind `STOP` (R62); the block treats it like any other (R57). -/
def execFrameStop (payload : List Byte) (checksum : Byte) (s : State) : Host.Outcome State Fault Refusal :=
  .next (receiveFrame (wireFrame (kindCode .stop) payload checksum) s)

/-- `FRAME.RECORD`: the frame of kind `RECORD` (R62); the block treats it like any other (R57). -/
def execFrameRecord (payload : List Byte) (checksum : Byte) (s : State) : Host.Outcome State Fault Refusal :=
  .next (receiveFrame (wireFrame (kindCode .record) payload checksum) s)

/-- `FRAME.TEMPO`: the frame of kind `TEMPO` (R62); the block treats it like any other (R57). -/
def execFrameTempo (payload : List Byte) (checksum : Byte) (s : State) : Host.Outcome State Fault Refusal :=
  .next (receiveFrame (wireFrame (kindCode .tempo) payload checksum) s)

/-- `FRAME.REQ_STATE`: the frame of kind `REQ_STATE` (R62); the block treats it like any other (R57). -/
def execFrameReqState (payload : List Byte) (checksum : Byte) (s : State) : Host.Outcome State Fault Refusal :=
  .next (receiveFrame (wireFrame (kindCode .reqState) payload checksum) s)

end Sys2Proof.Machine
end

