-- ==== Sys2Proof/Machine/System.lean ====
section
/-! DEFINITION. The block-wide operations: RESET (70_reset_and_hazards.md R158) and the reserved codes (R67, R141). -/

namespace Sys2Proof.Machine

/-- `RESET` on the state (R158): TX is not recalled, the frame registers become unspecified. -/
def resetBlock (s : State) : State :=
  forgetFrame { s with buf := [], csAcc := 0x00#8, fValid := false, dWhy := exitCode .short, xCode := xOk }

/-- `RESET` (R158); a reset input and power-on have exactly this effect (R157; DEDUCED, log entry 19, safe). -/
def execReset (s : State) : Host.Outcome State Fault Refusal := .next (resetBlock s)

/-- OPSEL 6 (R67): BAD_OP, `X_CODE <- 3` and nothing else (R141). -/
def execReserved6 (s : State) : Host.Outcome State Fault Refusal := .next (raise xBadOp s)

/-- OPSEL 7 (R67): BAD_OP, `X_CODE <- 3` and nothing else (R141). -/
def execReserved7 (s : State) : Host.Outcome State Fault Refusal := .next (raise xBadOp s)

end Sys2Proof.Machine
end

