-- ==== Sys2Proof/Machine/Dispatch.lean ====
section
/-! DEFINITION. One arm per constructor of Instr, each one direct call of its meaning. -/

namespace Sys2Proof.Machine

def exec (i : Instr) (s : State) : Host.Outcome State Fault Refusal :=
  match i with
  | .reset => Sys2Proof.Machine.execReset s
  | .csClr => Sys2Proof.Machine.execCsClr s
  | .csFold b => Sys2Proof.Machine.execCsFold b s
  | .enc kind payload => Sys2Proof.Machine.execEnc kind payload s
  | .decPush b => Sys2Proof.Machine.execDecPush b s
  | .decTry => Sys2Proof.Machine.execDecTry s
  | .reserved6 => Sys2Proof.Machine.execReserved6 s
  | .reserved7 => Sys2Proof.Machine.execReserved7 s
  | .frame kind payload checksum => Sys2Proof.Machine.execFrame kind payload checksum s
  | .frameTick payload checksum => Sys2Proof.Machine.execFrameTick payload checksum s
  | .frameTransport payload checksum => Sys2Proof.Machine.execFrameTransport payload checksum s
  | .frameVoices payload checksum => Sys2Proof.Machine.execFrameVoices payload checksum s
  | .frameMidiIn payload checksum => Sys2Proof.Machine.execFrameMidiIn payload checksum s
  | .frameCcState payload checksum => Sys2Proof.Machine.execFrameCcState payload checksum s
  | .frameDebug payload checksum => Sys2Proof.Machine.execFrameDebug payload checksum s
  | .framePlay payload checksum => Sys2Proof.Machine.execFramePlay payload checksum s
  | .frameStop payload checksum => Sys2Proof.Machine.execFrameStop payload checksum s
  | .frameRecord payload checksum => Sys2Proof.Machine.execFrameRecord payload checksum s
  | .frameTempo payload checksum => Sys2Proof.Machine.execFrameTempo payload checksum s
  | .frameReqState payload checksum => Sys2Proof.Machine.execFrameReqState payload checksum s

end Sys2Proof.Machine
end

