-- ==== Sys2Proof/Machine/Step.lean ====
section
/-! DEFINITION. One step: the host issues its next operation, which runs to its end (R7, R8). -/

namespace Sys2Proof.Machine

/-- One atomic operation (R7, R46), or nothing where the host issues none: "Between operations the block is idle and
holds its state" (R156). DEDUCED, log entry 4, safe. -/
def step (s : State) : Host.Outcome State Fault Refusal :=
  match fetch s with
  | .idle => .next s
  | .op i rest => exec i { s with trace := rest }
  | .stop r => .refused r

/-- `s` with the record of a word of the opcode table standing first among the operations the host has to issue. -/
def State.withFetchWord (s : State) (nbits w : Nat) : State :=
  { s with trace := tableRecord nbits w ++ s.trace }

end Sys2Proof.Machine
end

