-- ==== Sys2Proof/Machine/Phases.lean ====
section
/-! DEFINITION. The units as explicit sequencers: the decoder's phases (10_state.md R28) and the byte-serial packer (41_encoder.md R94). Their temporaries are dead between operations (R27), so no part of State or of the step (DESIGN CHOICE, log entry 17, safe). -/

namespace Sys2Proof.Machine

/-- The decoder's step position (R28). -/
inductive Phase where
  | idle | gate | hunt | regate | hdr | fill | chk
deriving DecidableEq, Repr

/-- What the decoder holds while a DEC_TRY is in progress (R27(a)), and the attempt once it has left. -/
structure Walk where
  phase : Phase
  scan : Nat
  kind : Byte
  length : Len
  total : Nat
  acc : Byte
  left : Option Attempt
deriving DecidableEq, Repr

/-- The walk as a DEC_TRY begins. -/
def walkStart : Walk := ⟨.gate, 0, 0#8, 0#16, 0, 0#8, none⟩

/-- The walk leaves by an exit and is idle again. -/
def walkLeave (a : Attempt) (w : Walk) : Walk := { w with phase := .idle, left := some a }

/-- The fold of the checksum validator, in phase `CHK` (R28): the covered bytes of the candidate (R104). -/
def walkFold (B : List Byte) (w : Walk) : Walk :=
  { w with acc := xorfold (slice B (w.scan + 1) (w.scan + 4 + w.length.toNat)) }

/-- One phase over the buffer `B` (R28): `FILL` only tests whether enough has accumulated, `CHK` folds and compares. A read outside the buffer stays where it is; no walk from its start meets one (R40). -/
def walkStep (B : List Byte) (w : Walk) : Walk :=
  match w.phase with
  | .idle => w
  | .gate => if B.length < minFrame then walkLeave ⟨.short, 0, none⟩ w else { w with phase := .hunt }
  | .hunt =>
    match firstSync B with
    | none => walkLeave ⟨.noSync, B.length, none⟩ w
    | some i => { w with phase := .regate, scan := i }
  | .regate =>
    if B.length - w.scan < minFrame then walkLeave ⟨.shortSync, w.scan, none⟩ w
    else { w with phase := .hdr }
  | .hdr =>
    match B[w.scan + 1]?, B[w.scan + 2]?, B[w.scan + 3]? with
    | some k, some lo, some hi =>
      { w with phase := .fill, kind := k, length := lenOf lo hi, total := totalOf (lenOf lo hi) }
    | _, _, _ => w
  | .fill =>
    if B.length - w.scan < w.total then walkLeave ⟨.incomplete, w.scan, none⟩ w
    else { w with phase := .chk }
  | .chk =>
    match B[w.scan + 4 + w.length.toNat]? with
    | some transmitted =>
      let folded := walkFold B w
      if folded.acc = transmitted then
        walkLeave ⟨.frame, w.scan + w.total,
          some ⟨w.kind, w.length, slice B (w.scan + 4) (w.scan + 4 + w.length.toNat)⟩⟩ folded
      else walkLeave ⟨.resync, w.scan + 1, none⟩ folded
    | none => w

/-- `k` phases. -/
def walkRun (B : List Byte) : Nat → Walk → Walk
  | 0, w => w
  | k + 1, w => walkRun B k (walkStep B w)

/-- The packer's phases (R94). -/
inductive PackPhase where
  | check | sync | kind | lenLo | lenHi | payload | csum | done
deriving DecidableEq, Repr

/-- What the encoder holds while an ENC is in progress (R27(b)): the payload bytes still to take from PAY, the fold,
the bytes emitted so far and the outcome code. -/
structure Pack where
  phase : PackPhase
  kind : Byte
  count : Nat
  todo : List Byte
  acc : Byte
  sent : List Byte
  code : BitVec 2
deriving DecidableEq, Repr

/-- The packer as an ENC begins; the count is known before the first byte (R37). -/
def packStart (kind : Byte) (payload : List Byte) : Pack :=
  ⟨.check, kind, payload.length, payload, 0#8, [], xOk⟩

/-- Emit one byte and fold it (R94). -/
def packSend (b : Byte) (p : Pack) : Pack := { p with sent := p.sent ++ [b], acc := p.acc ^^^ b }

/-- One phase of the packer, or one payload byte (R94). The sync byte is emitted and never folded. -/
def packStep (p : Pack) : Pack :=
  match p.phase with
  | .check =>
    if maxPayload < p.count then { p with phase := .done, code := xEncTooLong } else { p with phase := .sync }
  | .sync => { p with phase := .kind, sent := p.sent ++ [syncByte], acc := 0#8 }
  | .kind => { packSend p.kind p with phase := .lenLo }
  | .lenLo => { packSend (lenLo p.count) p with phase := .lenHi }
  | .lenHi => { packSend (lenHi p.count) p with phase := .payload }
  | .payload =>
    match p.todo with
    | [] => { p with phase := .csum }
    | b :: rest => { packSend b p with todo := rest }
  | .csum => { p with phase := .done, sent := p.sent ++ [p.acc] }
  | .done => p

/-- `k` steps of the packer. -/
def packRun : Nat → Pack → Pack
  | 0, p => p
  | k + 1, p => packRun k (packStep p)

end Sys2Proof.Machine
end

