-- ==== Sys2Proof/Machine/Pseudo.lean ====
section
/-! DEFINITION. The pseudo-operations (30_encoding.md R70 to R74) as sequences of operations. They are how a host uses the block and no part of the step (R122). -/

namespace Sys2Proof.Machine

/-- A sequence of operations, each seeing the complete effect of the ones before it (R49). -/
def runOps : List Instr → State → Host.Outcome State Fault Refusal
  | [], s => .next s
  | i :: is, s =>
    match exec i s with
    | .next t => runOps is t
    | .fault r => .fault r
    | .refused r => .refused r

/-- `CS_SUM` (R70). -/
def csSum (bs : List Byte) : List Instr := .csClr :: bs.map .csFold

/-- The operations `DEC_APPEND` expands to (R71) when no push is refused. -/
def decAppendOps (bs : List Byte) : List Instr := bs.map .decPush

/-- What a `DEC_DRAIN` hands to the host and the state it leaves (R72). -/
structure Drained where
  frames : List Frame
  state : State
deriving DecidableEq, Repr

/-- The drain with at most `k` attempts: it stops at the first attempt that leaves F_VALID = 0, whatever the reason (R72, C12). -/
def drainLoop : Nat → State → Drained
  | 0, s => ⟨[], s⟩
  | k + 1, s =>
    match readFrame (tryOnce s) with
    | .ok f => let d := drainLoop k (tryOnce s); ⟨f :: d.frames, d.state⟩
    | .error _ => ⟨[], tryOnce s⟩

/-- `DEC_DRAIN` (R72). Every returned frame removes at least 5 bytes, so BLEN + 1 attempts are never all used up by frames (R177; DEDUCED, log entry 18, safe). -/
def decDrain (s : State) : Drained := drainLoop (s.buf.length + 1) s

/-- `DECODE` (R73): `RESET`, `DEC_APPEND`, `DEC_TRY`. R73 requires `|s| <= BUF_CAP` and leaves a longer `s` open: the attempt is then
made on the bytes taken before the refused push (DESIGN CHOICE, log entry 20, unsafe). -/
def decodeBytes (bs : List Byte) (s : State) : State := tryOnce (decAppend bs (resetBlock s))

/-- `POLL` (R74): `DEC_APPEND`, then `DEC_DRAIN`, also where a push was refused, which R74 leaves open (DESIGN CHOICE, log
entry 20, unsafe). -/
def poll (bs : List Byte) (s : State) : Drained := decDrain (decAppend bs s)

end Sys2Proof.Machine
end

