-- ==== Sys2Proof/Safety.lean ====
section
/-! DEFINITION. What the states between operations satisfy (10_state.md R29), and the well-formed buffer. -/

namespace Sys2Proof.Machine

/-- The buffer keeps its one form: a byte sequence (equal buffers are equal data, there being no addresses, log entry 10)
of at most `BUF_CAP` bytes (R15, R29(a)). -/
def Memory.wf (c : Config) (buf : List Byte) : Bool := c.bufCap.hasRoom buf.length 0

/-- The invariants of R29; (d) holds of every 2-bit value. -/
structure Inv (s : State) : Prop where
  /-- R29(a). -/
  bufWf : Memory.wf s.cfg s.buf = true
  /-- R29(b). -/
  frameLength : s.fValid = true → s.fPayload.length = s.fLen.toNat
  /-- R29(c). -/
  whyCode : s.dWhy.toNat ≤ 5
  /-- R29(e). -/
  validIffFrame : s.fValid = true ↔ s.dWhy = exitCode .frame

end Sys2Proof.Machine
end

