-- ==== Sys2Proof/WellFormed.lean ====
section
/-! DEFINITION. Which terms of Instr an encoding can express. -/

namespace Sys2Proof

/-- A payload the 16-bit `length` field can count (R58). -/
def fitsLength (payload : List Byte) : Bool := decide (payload.length ≤ maxPayload)

/-- Well-formed operations and frames: `ENC`'s count fits the 32 bits of its record (R68), a frame's payload fits
the `length` field (R58), and the row `FRAME` stands for the kinds that have no row of their own (log entry 16). -/
def Instr.wf : Instr → Bool
  | .reset => true
  | .csClr => true
  | .csFold _ => true
  | .enc _ payload => decide (payload.length < 2 ^ 32)
  | .decPush _ => true
  | .decTry => true
  | .reserved6 => true
  | .reserved7 => true
  | .frame kind payload _ => fitsLength payload && (kindOfByte kind).isNone
  | .frameTick payload _ => fitsLength payload
  | .frameTransport payload _ => fitsLength payload
  | .frameVoices payload _ => fitsLength payload
  | .frameMidiIn payload _ => fitsLength payload
  | .frameCcState payload _ => fitsLength payload
  | .frameDebug payload _ => fitsLength payload
  | .framePlay payload _ => fitsLength payload
  | .frameStop payload _ => fitsLength payload
  | .frameRecord payload _ => fitsLength payload
  | .frameTempo payload _ => fitsLength payload
  | .frameReqState payload _ => fitsLength payload

end Sys2Proof
end

