-- ==== Sys2Proof/Certificates/Slice0/Obligations.lean ====
section
/-! DEFINITION. The statements for the provers, and the few words they are written in. -/

namespace Sys2Proof.Machine

/-- `t` is `s` after a DEC_TRY that returned no frame, left `buf` in the buffer and took the exit of code `why`: only BUF, F_VALID,
D_WHY and X_CODE take stated values, F_KIND, F_LEN and F_PAYLOAD are whatever they are (R17; with them the model's index of free
values), and all else is as it was (R31). -/
def FramelessExit (s t : State) (buf : List Byte) (why : BitVec 3) : Prop :=
  t = { s with
    buf := buf, fValid := false, dWhy := why, xCode := 0#2
    fKind := t.fKind, fLen := t.fLen, fPayload := t.fPayload, freeIdx := t.freeIdx }

/-- Two states that the spec does not tell apart: the same in every field but F_KIND, F_LEN, F_PAYLOAD and the model's index of
free values, and what the host reads of the frame registers is the same too (R34). So the frame registers are equal while
F_VALID = 1, and nothing is said of the unspecified values they hold while F_VALID = 0 (log entry 8). -/
def SameForTheHost (t u : State) : Prop :=
  t = { u with fKind := t.fKind, fLen := t.fLen, fPayload := t.fPayload, freeIdx := t.freeIdx } ∧
  readFrame t = readFrame u

/-- `s` after a DEC_TRY at exit FRAME (R105). -/
def frameExit (s : State) (buf : List Byte) (kind : Byte) (length : Len) (payload : List Byte) : State :=
  { s with
    buf := buf, fValid := true, dWhy := 4#3, xCode := 0#2, fKind := kind, fLen := length, fPayload := payload }

/-- The bytes folded by the CS_FOLDs of a sequence, in order. -/
def foldedBytes (is : List Instr) : List Byte :=
  is.filterMap fun i => match i with
    | .csFold b => some b
    | _ => none

/-- What one operation puts on TX (R31, R87, R88). -/
def emittedBy : Instr → List Byte
  | .enc kind payload => if payload.length ≤ 65535 then encFrame kind payload else []
  | _ => []

/-- The operations of the command port (R65), as against the wire-frame rows. -/
def isOperation : Instr → Bool
  | .reset | .csClr | .csFold _ | .enc _ _ | .decPush _ | .decTry | .reserved6 | .reserved7 => true
  | _ => false

/-- The twelve frame rows of the opcode table for one payload and checksum byte, each with its kind (R62). -/
def frameRows (kind : Byte) (payload : List Byte) (c : Byte) : List (Instr × Byte) :=
  [(.frame kind payload c, kind), (.frameTick payload c, 0x01#8), (.frameTransport payload c, 0x02#8),
    (.frameVoices payload c, 0x03#8), (.frameMidiIn payload c, 0x04#8), (.frameCcState payload c, 0x05#8),
    (.frameDebug payload c, 0xFF#8), (.framePlay payload c, 0x80#8), (.frameStop payload c, 0x81#8),
    (.frameRecord payload c, 0x82#8), (.frameTempo payload c, 0x83#8), (.frameReqState payload c, 0x90#8)]

/-- The pushes of a byte sequence in which the k-th push is followed by the k-th number of DEC_TRYs (R117). -/
def fragments (bs : List Byte) (tries : List Nat) : List Instr :=
  (bs.zip tries).flatMap fun p => .decPush p.1 :: List.replicate p.2 .decTry

/-- The table of R108 read off the buffer: the code of the exit taken and the number of bytes dropped. -/
def exitTable (B : List Byte) : BitVec 3 × Nat :=
  if B.length < 5 then (0#3, 0)
  else match B.findIdx? (fun b => b == 0xAA#8) with
    | none => (1#3, B.length)
    | some i =>
      let length := (B.getD (i + 2) 0#8).toNat + 256 * (B.getD (i + 3) 0#8).toNat
      if B.length - i < 5 then (2#3, i)
      else if B.length - i < 4 + length + 1 then (3#3, i)
      else if xorfold (slice B (i + 1) (i + 4 + length)) = B.getD (i + 4 + length) 0#8 then
        (4#3, i + (4 + length + 1))
      else (5#3, i + 1)

end Sys2Proof.Machine

open Sys2Proof Sys2Proof.Machine

/-! Encoding. -/

/-- Decode after encode, every operation and frame with every operand (30_encoding.md R55, R68). -/
def Obligations.DecodeEncodeRoundTrip : Prop :=
  ∀ (i : Instr) (rest : List Byte), i.wf = true → decode (encode i ++ rest) = .ok i rest

/-- Encode after decode: what decodes has one meaning and only well-formed operations come out (R55, R68). -/
def Obligations.EncodeDecodeRoundTrip : Prop :=
  ∀ (bs rest : List Byte) (i : Instr), decode bs = .ok i rest → i.wf = true ∧ bs = encode i ++ rest

/-- Words of the spec, byte by byte: the trace records of P1 and P4, the source's frame, frame E5. -/
def Obligations.SpecWordsDecode : Prop :=
  decode [0x00#8] = .ok .reset [] ∧
  decode [0x01#8] = .ok .csClr [] ∧
  decode [0x02#8, 0x5A#8] = .ok (.csFold 0x5A#8) [] ∧
  decode [0x03#8, 0x01#8, 0x04#8, 0x00#8, 0x00#8, 0x00#8, 0x2A#8, 0x00#8, 0x00#8, 0x00#8] =
    .ok (.enc 0x01#8 [0x2A#8, 0x00#8, 0x00#8, 0x00#8]) [] ∧
  decode [0x04#8, 0xAA#8] = .ok (.decPush 0xAA#8) [] ∧
  decode [0x05#8] = .ok .decTry [] ∧
  decode [0x06#8] = .ok .reserved6 [] ∧
  decode [0x07#8] = .ok .reserved7 [] ∧
  decode [0xAA#8, 0x01#8, 0x04#8, 0x00#8, 0x2A#8, 0x00#8, 0x00#8, 0x00#8, 0x2F#8] =
    .ok (.frameTick [0x2A#8, 0x00#8, 0x00#8, 0x00#8] 0x2F#8) [] ∧
  decode [0xAA#8, 0xAA#8, 0x01#8, 0x00#8, 0xAA#8, 0x01#8] = .ok (.frame 0xAA#8 [0xAA#8] 0x01#8) []

/-- A first byte that is neither an OPSEL code nor the sync byte begins no record; a record cut short is none either;
no record is read from no bytes (R68; the rejections are the model's, log entry 5). -/
def Obligations.NonRecordsAreRejected : Prop :=
  decode [] = .bad .empty ∧
  (∀ (b : Byte) (rest : List Byte), 8 ≤ b.toNat → b ≠ 0xAA#8 → decode (b :: rest) = .bad (.notARecord b)) ∧
  (∀ (i : Instr) (k : Nat), i.wf = true → 0 < k → k < (encode i).length →
    decode ((encode i).take k) = .bad .truncated)

/-! The step. -/

/-- When the host's records begin with one of an operation it can present, the step is that operation, the record taken (R7, R8). -/
def Obligations.StepRunsTheDecodedOperation : Prop :=
  ∀ (s : State) (i : Instr) (rest : List Byte),
    decode s.trace = .ok i rest → i.presentable s.cfg = true → step s = exec i { s with trace := rest }

/-- What a step does with records that are no operation: nothing where there are none (R156), and a refusal by name otherwise
(the model's choice, log entries 4, 5 and 7). -/
def Obligations.StepWithoutAnOperation : Prop :=
  (∀ s : State, s.trace = [] → step s = .next s) ∧
  (∀ (s : State) (b : Byte), decode s.trace = .bad (.notARecord b) → step s = .refused (.notARecord b)) ∧
  (∀ s : State, decode s.trace = .bad .truncated → step s = .refused .truncatedRecord) ∧
  (∀ (s : State) (kind : Byte) (payload rest : List Byte), decode s.trace = .ok (.enc kind payload) rest →
    2 ^ s.cfg.plenW ≤ payload.length → step s = .refused .countNotPresentable)

/-! The checksum unit. -/

/-- R79, with the checksums ENC and DEC_TRY compute as they would have been. -/
def Obligations.CsClrClearsTheAccumulator : Prop :=
  (∀ rest : List Byte, decode (0x01#8 :: rest) = .ok .csClr rest) ∧
  (∀ s : State, exec .csClr s = .next { s with csAcc := 0x00#8, xCode := 0#2 }) ∧
  ∀ (kind : Byte) (payload : List Byte) (s : State), ∀ i ∈ [Instr.enc kind payload, Instr.decTry],
    ∃ t u, exec i s = .next t ∧ runOps [.csClr, i] s = .next u ∧ SameForTheHost u { t with csAcc := 0x00#8 }

/-- R80. -/
def Obligations.CsFoldFoldsOneByte : Prop :=
  (∀ (b : Byte) (rest : List Byte), decode (0x02#8 :: b :: rest) = .ok (.csFold b) rest) ∧
  ∀ (b : Byte) (s : State), exec (.csFold b) s = .next { s with csAcc := s.csAcc ^^^ b, xCode := 0#2 }

/-- R77: the recursion of the fold, and each bit of the result the parity of that bit of all the bytes. -/
def Obligations.XorfoldIsBitwiseParity : Prop :=
  xorfold [] = 0x00#8 ∧
  (∀ (bs : List Byte) (b : Byte), xorfold (bs ++ [b]) = xorfold bs ^^^ b) ∧
  ∀ (bs : List Byte) (j : Nat),
    (xorfold bs).getLsbD j = decide (bs.countP (fun b => b.getLsbD j) % 2 = 1)

/-- The consequences of R78: concatenation, order, cancellation. -/
def Obligations.XorfoldIgnoresOrder : Prop :=
  (∀ s t : List Byte, xorfold (s ++ t) = xorfold s ^^^ xorfold t) ∧
  (∀ s t : List Byte, s.Perm t → xorfold s = xorfold t) ∧
  ∀ (s : List Byte) (b : Byte), xorfold (b :: b :: s) = xorfold s

/-- R70, with every other register as it was. -/
def Obligations.CsSumLeavesTheChecksum : Prop :=
  ∀ (bs : List Byte) (s : State),
    runOps (csSum bs) s = .next { s with csAcc := xorfold bs, xCode := 0#2 }

/-- R81: other units' operations, frames that arrive among them, may come between the folds. -/
def Obligations.InterleavedFoldsLeaveTheChecksum : Prop :=
  ∀ (is : List Instr) (s : State), (∀ i ∈ is, i ≠ .csClr ∧ i ≠ .reset) →
    ∃ t, runOps (.csClr :: is) s = .next t ∧ t.csAcc = xorfold (foldedBytes is)

/-! The encoder. -/

/-- R87, every other register as it was. -/
def Obligations.EncAppendsTheWholeFrame : Prop :=
  ∀ (kind : Byte) (payload : List Byte) (s : State), payload.length ≤ 65535 →
    let n : BitVec 16 := BitVec.ofNat 16 payload.length
    let body := [kind, n.extractLsb' 0 8, n.extractLsb' 8 8] ++ payload
    exec (.enc kind payload) s =
      .next { s with tx := s.tx ++ ([0xAA#8] ++ body ++ [xorfold body]), xCode := 0#2 }

/-- R88. -/
def Obligations.EncRejectsALongPayload : Prop :=
  ∀ (kind : Byte) (payload : List Byte) (s : State), 65535 < payload.length →
    exec (.enc kind payload) s = .next { s with xCode := 1#2 }

/-- The length law of the encoder (R92). -/
def Obligations.EncodedFrameHasItsLength : Prop :=
  ∀ (kind : Byte) (payload : List Byte) (s : State), payload.length ≤ 65535 →
    ∃ f lo hi, exec (.enc kind payload) s = .next { s with tx := s.tx ++ f, xCode := 0#2 } ∧
      f.length = payload.length + 5 ∧ f[0]? = some 0xAA#8 ∧ f[2]? = some lo ∧ f[3]? = some hi ∧
      lo.toNat + 256 * hi.toNat = payload.length ∧ xorfold (f.drop 1) = 0x00#8

/-- R91: two kinds' frames differ in byte 1 and in the checksum byte alone. -/
def Obligations.EncTreatsEveryKindAlike : Prop :=
  ∀ (kind kind' : Byte) (payload : List Byte) (s : State), payload.length ≤ 65535 →
    ∃ f f', exec (.enc kind payload) s = .next { s with tx := s.tx ++ f, xCode := 0#2 } ∧
      exec (.enc kind' payload) s = .next { s with tx := s.tx ++ f', xCode := 0#2 } ∧
      f.length = f'.length ∧ f[1]? = some kind ∧ f'[1]? = some kind' ∧
      ∀ j, j ≠ 1 → j ≠ payload.length + 4 → f[j]? = f'[j]?

/-- The byte-serial packer of R94, a machine of the model's own (DESIGN CHOICE, log entry 17), ends, and what it sent and its code
are ENC's effect, for every payload length. -/
def Obligations.PackerRefinesEnc : Prop :=
  ∀ (kind : Byte) (payload : List Byte) (s : State),
    (packRun (payload.length + 7) (packStart kind payload)).phase = .done ∧
    exec (.enc kind payload) s = .next { s with
      tx := s.tx ++ (packRun (payload.length + 7) (packStart kind payload)).sent
      xCode := (packRun (payload.length + 7) (packStart kind payload)).code }

/-- The round trip (R93): what ENC emits, DECODE gives back, from every state and in every configuration. -/
def Obligations.EncodedFrameDecodesBack : Prop :=
  ∀ (kind : Byte) (payload : List Byte) (s u : State), payload.length ≤ 65535 →
    ∃ f, exec (.enc kind payload) s = .next { s with tx := s.tx ++ f, xCode := 0#2 } ∧
      readFrame (decodeBytes f u) = .ok ⟨kind, BitVec.ofNat 16 payload.length, payload⟩ ∧
      (decodeBytes f u).dWhy = 4#3 ∧ (decodeBytes f u).buf = []

/-- R33, R89: TX is, whatever is interleaved, the whole frames of the ENCs that completed, in issue order, and no operation
reads it. Every sequence of operations runs to its end (R149). -/
def Obligations.TransmitHistoryIsWholeFrames : Prop :=
  ∀ (is : List Instr) (s : State),
    ∃ t, runOps is s = .next t ∧ t.tx = s.tx ++ is.flatMap emittedBy ∧
      ∀ old : List Byte, ∃ u, runOps is { s with tx := old } = .next u ∧
        SameForTheHost u { t with tx := old ++ is.flatMap emittedBy }

/-! The decoder. -/

/-- R96: appended where `BLEN` is not `BUF_CAP`, refused where it is. -/
def Obligations.PushAppendsOrIsRefused : Prop :=
  (∀ (b : Byte) (rest : List Byte), decode (0x04#8 :: b :: rest) = .ok (.decPush b) rest) ∧
  (∀ (b : Byte) (s : State), s.cfg.bufCap ≠ .finite s.buf.length →
    exec (.decPush b) s = .next { s with buf := s.buf ++ [b], xCode := 0#2 }) ∧
  (∀ (b : Byte) (s : State), s.cfg.bufCap = .finite s.buf.length →
    exec (.decPush b) s = .next { s with xCode := 2#2 })

/-- DEC_APPEND (R71): with room it is its pushes; where the room ends the expansion stops and the bytes from there on are not taken. -/
def Obligations.AppendStopsAtARefusedPush : Prop :=
  (∀ (bs : List Byte) (s : State), s.cfg.bufCap.hasRoom s.buf.length bs.length = true →
    runOps (decAppendOps bs) s = .next (decAppend bs s) ∧
    decAppend bs s = { s with buf := s.buf ++ bs, xCode := if bs = [] then s.xCode else 0#2 }) ∧
  (∀ (bs : List Byte) (s : State) (c : Nat), s.cfg.bufCap = .finite c → s.buf.length ≤ c →
    c < s.buf.length + bs.length →
    decAppend bs s = { s with buf := s.buf ++ bs.take (c - s.buf.length), xCode := 2#2 })

/-- R98. -/
def Obligations.TryKeepsAShortBuffer : Prop :=
  ∀ s : State, s.buf.length < 5 → ∃ t, exec .decTry s = .next t ∧ FramelessExit s t s.buf 0#3

/-- R99. -/
def Obligations.TryEmptiesABufferWithoutSync : Prop :=
  ∀ s : State, 5 ≤ s.buf.length → 0xAA#8 ∉ s.buf →
    ∃ t, exec .decTry s = .next t ∧ FramelessExit s t [] 1#3

/-- R101: exit SHORT_SYNC, possible only behind garbage. -/
def Obligations.TryKeepsAShortCandidate : Prop :=
  ∀ (s : State) (g S : List Byte), s.buf = g ++ 0xAA#8 :: S → 0xAA#8 ∉ g → 5 ≤ s.buf.length →
    (0xAA#8 :: S).length < 5 →
    1 ≤ g.length ∧ ∃ t, exec .decTry s = .next t ∧ FramelessExit s t (0xAA#8 :: S) 2#3

/-- R103: exit INCOMPLETE, whatever the bytes after the header hold, and however many attempts are made. -/
def Obligations.TryWaitsForAnIncompleteCandidate : Prop :=
  ∀ (s : State) (g body : List Byte) (kind lo hi : Byte),
    s.buf = g ++ 0xAA#8 :: kind :: lo :: hi :: body → 0xAA#8 ∉ g → 1 ≤ body.length →
    4 + body.length < 4 + (lo.toNat + 256 * hi.toNat) + 1 →
    (∃ t, exec .decTry s = .next t ∧ FramelessExit s t (0xAA#8 :: kind :: lo :: hi :: body) 3#3) ∧
    ∀ k : Nat, ∃ u, runOps (List.replicate (k + 1) .decTry) s = .next u ∧
      FramelessExit s u (0xAA#8 :: kind :: lo :: hi :: body) 3#3

/-- R105: exit FRAME. -/
def Obligations.TryReturnsAValidFrame : Prop :=
  ∀ (s : State) (g payload rest : List Byte) (kind lo hi c : Byte),
    s.buf = g ++ 0xAA#8 :: kind :: lo :: hi :: (payload ++ c :: rest) → 0xAA#8 ∉ g →
    payload.length = lo.toNat + 256 * hi.toNat → xorfold (kind :: lo :: hi :: payload) = c →
    exec .decTry s = .next (frameExit s rest kind (BitVec.ofNat 16 payload.length) payload)

/-- R106: exit RESYNC drops the garbage and exactly one byte more. -/
def Obligations.TryDropsOneByteOnMismatch : Prop :=
  ∀ (s : State) (g payload rest : List Byte) (kind lo hi c : Byte),
    s.buf = g ++ 0xAA#8 :: kind :: lo :: hi :: (payload ++ c :: rest) → 0xAA#8 ∉ g →
    payload.length = lo.toNat + 256 * hi.toNat → xorfold (kind :: lo :: hi :: payload) ≠ c →
    ∃ t, exec .decTry s = .next t ∧ FramelessExit s t (kind :: lo :: hi :: (payload ++ c :: rest)) 5#3

/-- R107 against the table of R108: the exit, the bytes dropped, and the frame registers at exit FRAME, for every buffer. -/
def Obligations.TryFollowsTheExitTable : Prop :=
  ∀ s : State, ∃ t, exec .decTry s = .next t ∧
    t = { s with
      buf := t.buf, fValid := t.fValid, fKind := t.fKind, fLen := t.fLen, fPayload := t.fPayload
      dWhy := t.dWhy, xCode := 0#2, freeIdx := t.freeIdx } ∧
    t.dWhy = (exitTable s.buf).1 ∧ t.buf = s.buf.drop (exitTable s.buf).2 ∧
    (t.fValid = true ↔ (exitTable s.buf).1 = 4#3) ∧
    ∀ i, s.buf.findIdx? (fun b => b == 0xAA#8) = some i → t.fValid = true →
      s.buf[i + 1]? = some t.fKind ∧
      t.fLen.toNat = (s.buf.getD (i + 2) 0#8).toNat + 256 * (s.buf.getD (i + 3) 0#8).toNat ∧
      t.fPayload = slice s.buf (i + 4) (i + 4 + t.fLen.toNat) ∧ t.fPayload.length = t.fLen.toNat

/-- R43 and R110: the buffer after is a suffix of the buffer before, and how much shorter it is at least at each exit. -/
def Obligations.TryOnlyDropsFromTheHead : Prop :=
  ∀ s : State, ∃ t n, exec .decTry s = .next t ∧ n ≤ s.buf.length ∧ t.buf = s.buf.drop n ∧
    (t.dWhy = 0#3 → n = 0) ∧ (t.dWhy = 1#3 → 5 ≤ n) ∧ (t.dWhy = 2#3 → 1 ≤ n) ∧
    (t.dWhy = 3#3 → n = 0 → s.buf.head? = some 0xAA#8) ∧ (t.dWhy = 4#3 → 5 ≤ n) ∧ (t.dWhy = 5#3 → 1 ≤ n)

/-- R111: what a second attempt does with no push in between. -/
def Obligations.WaitingAttemptsRepeat : Prop :=
  ∀ s : State, ∃ t u, exec .decTry s = .next t ∧ exec .decTry t = .next u ∧
    (t.dWhy = 0#3 → u.dWhy = 0#3 ∧ u.buf = t.buf ∧ t.buf = s.buf) ∧
    (t.dWhy = 1#3 → u.dWhy = 0#3 ∧ u.buf = [] ∧ t.buf = []) ∧
    (t.dWhy = 2#3 → u.dWhy = 0#3 ∧ u.buf = t.buf) ∧
    (t.dWhy = 3#3 → u.dWhy = 3#3 ∧ u.buf = t.buf)

/-- R112: the head of the buffer after each exit, and the condition of R121 it leaves the decoder in. -/
def Obligations.HeadOfTheBufferAfterEachExit : Prop :=
  ∀ s : State, ∃ t, exec .decTry s = .next t ∧
    (t.dWhy = 0#3 → t.buf = s.buf ∧ t.buf.length < 5) ∧
    (t.dWhy = 1#3 → condition t.buf = .empty) ∧
    (t.dWhy = 2#3 → t.buf.head? = some 0xAA#8 ∧ condition t.buf = .header) ∧
    (t.dWhy = 3#3 → t.buf.head? = some 0xAA#8 ∧ condition t.buf = .payload)

/-- R97, R27: an attempt uses nothing but the content of BUF. -/
def Obligations.TryDependsOnTheBufferAlone : Prop :=
  ∀ s s' : State, s.buf = s'.buf →
    ∃ t t', exec .decTry s = .next t ∧ exec .decTry s' = .next t' ∧
      t.buf = t'.buf ∧ t.fValid = t'.fValid ∧ t.dWhy = t'.dWhy ∧ t.xCode = t'.xCode ∧
      readFrame t = readFrame t'

/-- Garbage-prefix tolerance (R118). -/
def Obligations.GarbageWithoutSyncIsHarmless : Prop :=
  ∀ (s : State) (g payload r : List Byte) (kind : Byte), payload.length ≤ 65535 → 0xAA#8 ∉ g →
    s.buf = g ++ encFrame kind payload ++ r →
    exec .decTry s = .next (frameExit s r kind (BitVec.ofNat 16 payload.length) payload)

/-- Back-to-back frames (R119): one attempt each, and a drain returns both and stops at exit SHORT. -/
def Obligations.BackToBackFramesComeInOrder : Prop :=
  ∀ (s : State) (k1 k2 : Byte) (p1 p2 : List Byte), p1.length ≤ 65535 → p2.length ≤ 65535 →
    s.buf = encFrame k1 p1 ++ encFrame k2 p2 →
    ∃ t, exec .decTry s = .next t ∧ t = frameExit s (encFrame k2 p2) k1 (BitVec.ofNat 16 p1.length) p1 ∧
      exec .decTry t = .next (frameExit s [] k2 (BitVec.ofNat 16 p2.length) p2) ∧
      (decDrain s).frames =
        [⟨k1, BitVec.ofNat 16 p1.length, p1⟩, ⟨k2, BitVec.ofNat 16 p2.length, p2⟩] ∧
      (decDrain s).state.buf = [] ∧ (decDrain s).state.dWhy = 0#3

/-- R120: one byte is dropped; the second frame is returned where no byte of the first after its sync is `0xAA`; and it is not
always returned where one is: a second-hand candidate can swallow part of it (vector D14) or wait for ever in front of it. -/
def Obligations.ResyncAfterACorruptedFrame : Prop :=
  (∀ (s : State) (k1 k2 c : Byte) (p1 p2 : List Byte), p1.length ≤ 65535 → p2.length ≤ 65535 →
    c ≠ xorfold (coveredBytes k1 p1) → s.buf = wireFrame k1 p1 c ++ encFrame k2 p2 →
    ∃ t, exec .decTry s = .next t ∧ FramelessExit s t (s.buf.drop 1) 5#3 ∧
      (0xAA#8 ∉ (wireFrame k1 p1 c).drop 1 →
        exec .decTry t = .next (frameExit t [] k2 (BitVec.ofNat 16 p2.length) p2))) ∧
  (∃ (s : State) (k1 k2 c : Byte) (p1 p2 : List Byte), p1.length ≤ 65535 ∧ p2.length ≤ 65535 ∧
    c ≠ xorfold (coveredBytes k1 p1) ∧ s.buf = wireFrame k1 p1 c ++ encFrame k2 p2 ∧
    ∃ t u v, exec .decTry s = .next t ∧ exec .decTry t = .next u ∧ exec .decTry u = .next v ∧
      t.fValid = false ∧ u.fValid = true ∧ u.fKind ≠ k2 ∧ v.fValid = false ∧ v.dWhy = 0#3 ∧
      v.buf.length < 5 ∧ 0xAA#8 ∉ v.buf) ∧
  ∃ (s : State) (k1 k2 c : Byte) (p1 p2 : List Byte), p1.length ≤ 65535 ∧ p2.length ≤ 65535 ∧
    c ≠ xorfold (coveredBytes k1 p1) ∧ s.buf = wireFrame k1 p1 c ++ encFrame k2 p2 ∧
    ∀ k : Nat, ∃ u, runOps (List.replicate (k + 1) .decTry) s = .next u ∧ u.fValid = false

/-- Fragmented delivery (R117): every attempt before the last byte waits and drops nothing, the first one after it returns the frame. -/
def Obligations.FragmentedFrameIsReturnedOnce : Prop :=
  ∀ (s : State) (kind : Byte) (payload : List Byte) (tries : List Nat),
    payload.length ≤ 65535 → s.buf = [] → tries.length = payload.length + 5 →
    (∀ k, k < payload.length + 5 →
      ∃ t, runOps (fragments ((encFrame kind payload).take k) tries ++ [.decTry]) s = .next t ∧
        t.fValid = false ∧ t.buf = (encFrame kind payload).take k ∧ t.dWhy = if k < 5 then 0#3 else 3#3) ∧
    ∃ t, runOps (fragments ((encFrame kind payload).take (payload.length + 4)) tries ++
        [.decPush (xorfold (coveredBytes kind payload)), .decTry]) s = .next t ∧
      readFrame t = .ok ⟨kind, BitVec.ofNat 16 payload.length, payload⟩ ∧ t.dWhy = 4#3 ∧ t.buf = []

/-- The decoder's phases of R28, a machine of the model's own (DESIGN CHOICE, log entry 17), walked from the gate, leave by the exit of R107 on every buffer, in at most six phases, idle again;
and that attempt is what DEC_TRY writes. -/
def Obligations.PhaseWalkRefinesTry : Prop :=
  ∀ s : State, ∃ a t, (walkRun s.buf 6 walkStart).left = some a ∧ (walkRun s.buf 6 walkStart).phase = .idle ∧
    exec .decTry s = .next t ∧ t.dWhy = exitCode a.exit ∧ t.buf = s.buf.drop a.dropped ∧
    (∀ f, readFrame t = .ok f ↔ a.frame = some f)

/-- R174: a full buffer gives up at least one byte to an attempt, and then takes a push. -/
def Obligations.AFullBufferMakesRoom : Prop :=
  ∀ s : State, s.cfg.bufCap = .finite s.buf.length →
    ∃ t, exec .decTry s = .next t ∧ t.buf.length < s.buf.length ∧
      ∀ b : Byte, exec (.decPush b) t = .next { t with buf := t.buf ++ [b], xCode := 0#2 }

/-- R177: a drain returns at most BLEN / 5 frames and ends without one, so the bound the model puts on its attempts (DEDUCED, log
entry 18) never cuts it short; repeated attempts come to one that drops nothing. -/
def Obligations.DrainTerminates : Prop :=
  ∀ s : State, (decDrain s).frames.length ≤ s.buf.length / 5 ∧ (decDrain s).state.fValid = false ∧
    ∃ k t u, k ≤ s.buf.length ∧ runOps (List.replicate k .decTry) s = .next t ∧ exec .decTry t = .next u ∧
      u.buf = t.buf ∧ (u.dWhy = 0#3 ∨ u.dWhy = 3#3)

/-- R83: a candidate that is all there is returned exactly when its bytes after the sync, the checksum among them, fold to zero. -/
def Obligations.ZeroResidueDecidesValidity : Prop :=
  ∀ (s : State) (payload rest : List Byte) (kind lo hi c : Byte),
    s.buf = 0xAA#8 :: kind :: lo :: hi :: (payload ++ c :: rest) →
    payload.length = lo.toNat + 256 * hi.toNat →
    ∃ t, exec .decTry s = .next t ∧
      (t.fValid = true ↔ xorfold ([kind, lo, hi] ++ payload ++ [c]) = 0x00#8)

/-! Reset and the reserved codes. -/

/-- R158: the frame registers are unspecified after, TX is not recalled. -/
def Obligations.ResetPutsTheInitialState : Prop :=
  (∀ rest : List Byte, decode (0x00#8 :: rest) = .ok .reset rest) ∧
  ∀ s : State, ∃ t, exec .reset s = .next t ∧ t = { s with
    buf := [], csAcc := 0x00#8, fValid := false, dWhy := 0#3, xCode := 0#2
    fKind := t.fKind, fLen := t.fLen, fPayload := t.fPayload, freeIdx := t.freeIdx }

/-- R179: the launch state. -/
def Obligations.RunsStartInTheResetState : Prop :=
  State.reset.buf = [] ∧ State.reset.csAcc = 0x00#8 ∧ State.reset.fValid = false ∧ State.reset.dWhy = 0#3 ∧
  State.reset.xCode = 0#2 ∧ State.reset.tx = []

/-- R67, R141. -/
def Obligations.ReservedCodesWriteBadOp : Prop :=
  (∀ rest : List Byte, decode (0x06#8 :: rest) = .ok .reserved6 rest ∧
    decode (0x07#8 :: rest) = .ok .reserved7 rest) ∧
  ∀ s : State, exec .reserved6 s = .next { s with xCode := 3#2 } ∧
    exec .reserved7 s = .next { s with xCode := 3#2 }

/-! The frame rows. Their meaning, the arrival of the frame, is the model's choice (log entries 1 and 2). -/

/-- A valid frame of any row that arrives behind a buffer without sync, with room for it, is returned. -/
def Obligations.ArrivingFrameIsReturned : Prop :=
  ∀ (s : State) (kind c : Byte) (payload : List Byte), payload.length ≤ 65535 → 0xAA#8 ∉ s.buf →
    s.cfg.bufCap.hasRoom s.buf.length (payload.length + 5) = true →
    ∀ row ∈ frameRows kind payload c, c = xorfold (coveredBytes row.2 payload) →
      exec row.1 s = .next (frameExit s [] row.2 (BitVec.ofNat 16 payload.length) payload)

/-- A frame of any row with a wrong checksum byte that arrives behind a buffer without sync costs its sync byte alone. -/
def Obligations.ArrivingBadFrameIsRescanned : Prop :=
  ∀ (s : State) (kind c : Byte) (payload : List Byte), payload.length ≤ 65535 → 0xAA#8 ∉ s.buf →
    s.cfg.bufCap.hasRoom s.buf.length (payload.length + 5) = true →
    ∀ row ∈ frameRows kind payload c, c ≠ xorfold (coveredBytes row.2 payload) →
      ∃ t, exec row.1 s = .next t ∧ FramelessExit s t ((wireFrame row.2 payload c).drop 1) 5#3

/-- A frame of any row that arrives without room for it is taken up to the room there is; no attempt is made. -/
def Obligations.ArrivingFrameIsCutByAFullBuffer : Prop :=
  ∀ (s : State) (kind k : Byte) (payload : List Byte) (c : Nat), s.cfg.bufCap = .finite c →
    s.buf.length ≤ c → c < s.buf.length + (payload.length + 5) →
    ∀ row ∈ frameRows kind payload k,
      exec row.1 s = .next { s with
        buf := s.buf ++ (wireFrame row.2 payload k).take (c - s.buf.length), xCode := 2#2 }

/-- With room, a frame of any row, whatever stands in the buffer, is the pushes of its wire bytes and one attempt; that the two take
the same free values where no frame is returned is the model's choice too (log entry 8). -/
def Obligations.ArrivingFrameIsPushesAndOneTry : Prop :=
  ∀ (s : State) (kind c : Byte) (payload : List Byte),
    s.cfg.bufCap.hasRoom s.buf.length (payload.length + 5) = true →
    ∀ row ∈ frameRows kind payload c,
      exec row.1 s = runOps (decAppendOps (wireFrame row.2 payload c) ++ [.decTry]) s

/-! The whole machine. -/

/-- R138: every operation completes or ends in its own condition, the code says which, and nothing else is recorded. -/
def Obligations.EveryOutcomeHasItsCode : Prop :=
  ∀ (i : Instr) (s : State), isOperation i = true →
    ∃ t, exec i s = .next t ∧
      (t.xCode = 1#2 ↔ ∃ kind payload, i = .enc kind payload ∧ 65535 < payload.length) ∧
      (t.xCode = 2#2 ↔ ∃ b, i = .decPush b ∧ s.cfg.bufCap = .finite s.buf.length) ∧
      (t.xCode = 3#2 ↔ i = .reserved6 ∨ i = .reserved7) ∧
      (t.xCode ≠ 0#2 → t = { s with xCode := t.xCode })

/-- R148: an operation that does not complete writes X_CODE and nothing else. -/
def Obligations.ErrorsArePrecise : Prop :=
  ∀ (i : Instr) (s t : State), isOperation i = true → exec i s = .next t → t.xCode ≠ 0#2 →
    t = { s with xCode := t.xCode }

/-- R22, R21: no operation behaves differently because of a flag. Either it writes the decoder's results, the same in both runs,
or it keeps them in both. -/
def Obligations.FlagsAreNoInputs : Prop :=
  ∀ (i : Instr) (s : State) (v : Bool) (w : BitVec 3) (x : BitVec 2),
    ∃ t t', exec i s = .next t ∧ exec i { s with fValid := v, dWhy := w, xCode := x } = .next t' ∧
      (SameForTheHost t' t ∨
        (t.fValid = s.fValid ∧ t.dWhy = s.dWhy ∧ t.fKind = s.fKind ∧ t.fLen = s.fLen ∧ t.fPayload = s.fPayload ∧
          t' = { t with fValid := v, dWhy := w })) ∧
      (i = .decTry ∨ i = .reset → SameForTheHost t' t) ∧
      (isOperation i = true → i ≠ .decTry → i ≠ .reset → t' = { t with fValid := v, dWhy := w })

/-- R14: CS_ACC is written by CS_CLR, CS_FOLD and RESET alone, and every other operation, frames that arrive included, does
the same whatever stands in it. -/
def Obligations.OnlyCsAndResetWriteTheAccumulator : Prop :=
  (∀ s : State, ∃ t, exec .csClr s = .next t ∧ t.csAcc = 0x00#8) ∧
  (∀ s : State, ∃ t, exec .reset s = .next t ∧ t.csAcc = 0x00#8) ∧
  (∀ (b : Byte) (s : State), ∃ t, exec (.csFold b) s = .next t ∧ t.csAcc = s.csAcc ^^^ b) ∧
  ∀ (i : Instr) (s : State), i ≠ .csClr → i ≠ .reset → (∀ b, i ≠ .csFold b) →
    ∃ t, exec i s = .next t ∧ t.csAcc = s.csAcc ∧
      ∀ a : Byte, ∃ u, exec i { s with csAcc := a } = .next u ∧ SameForTheHost u { t with csAcc := a }

/-- R32: the decoder results stand until the next DEC_TRY or reset. -/
def Obligations.DecoderResultsLastUntilTheNextTry : Prop :=
  ∀ (i : Instr) (s : State), isOperation i = true → i ≠ .decTry → i ≠ .reset →
    ∃ t, exec i s = .next t ∧ t.fValid = s.fValid ∧ t.fKind = s.fKind ∧ t.fLen = s.fLen ∧
      t.fPayload = s.fPayload ∧ t.dWhy = s.dWhy

/-- R15: the buffer is appended to by DEC_PUSH, cut at the head by DEC_TRY, emptied by RESET, and nothing else; and it stays
within BUF_CAP. -/
def Obligations.BufferMutations : Prop :=
  ∀ (i : Instr) (s : State), isOperation i = true →
    ∃ t, exec i s = .next t ∧
      (∀ b, i = .decPush b → t.buf = s.buf ++ [b] ∨ t.buf = s.buf) ∧
      (i = .decTry → ∃ n, t.buf = s.buf.drop n) ∧
      (i = .reset → t.buf = []) ∧
      ((∀ b, i ≠ .decPush b) → i ≠ .decTry → i ≠ .reset → t.buf = s.buf) ∧
      ∀ c, s.cfg.bufCap = .finite c → s.buf.length ≤ c → t.cfg.bufCap = .finite c ∧ t.buf.length ≤ c

/-- R90: ENC writes TX and X_CODE alone, what it writes depends on its operands alone (R85), and it commutes with every
operation of the other units, but for X_CODE. -/
def Obligations.EncCommutesWithTheOtherUnits : Prop :=
  (∀ (kind : Byte) (payload : List Byte), ∃ (emitted : List Byte) (code : BitVec 2), ∀ s : State,
    exec (.enc kind payload) s = .next { s with tx := s.tx ++ emitted, xCode := code }) ∧
  ∀ (kind b : Byte) (payload : List Byte) (s : State),
    ∀ i ∈ [Instr.decPush b, Instr.decTry, Instr.csFold b, Instr.csClr],
      ∃ t u, runOps [.enc kind payload, i] s = .next t ∧ runOps [i, .enc kind payload] s = .next u ∧
        SameForTheHost t { u with xCode := t.xCode }

/-- R29: every step keeps the invariants. -/
def Obligations.StepKeepsTheInvariants : Prop :=
  ∀ s t : State, Inv s → step s = .next t → Inv t

/-- R29 at reset. -/
def Obligations.ResetSatisfiesTheInvariants : Prop := Inv State.reset

/-- R40 to R42: a byte just appended, to an empty buffer too, is read at offset BLEN, the others stay where they were, and after a drop of n the byte at n + k is at k. -/
def Obligations.BufferReadsAfterAppendAndDrop : Prop :=
  (∀ (bs : List Byte) (b : Byte), (bufAppend b bs).length = bs.length + 1 ∧
    memRead1 (bufAppend b bs) bs.length (by simp [bufAppend]) = b) ∧
  ∀ (bs : List Byte) (b : Byte) (a n : Nat) (h : a < bs.length),
    memRead1 (bufAppend b bs) a (by simp [bufAppend]; omega) = memRead1 bs a h ∧
    (∀ h' : n + a + 1 ≤ bs.length,
      memRead1 (bufDrop n bs) a (by simp [bufDrop]; omega) = memRead1 bs (n + a) h') ∧
    (∀ h' : a + 2 ≤ bs.length,
      (memRead2 bs a h').toNat =
        (memRead1 bs a h).toNat + 256 * (memRead1 bs (a + 1) h').toNat)

/-- What the model adds to the spec's state keeps apart from it: no instruction writes the parameters (log entry 6) or the host's
records (log entry 3), the index of free values stays or moves by one, and the frame registers, unspecified values included, do
not depend on the other registers (the model's choice, log entry 8: two runs at one index take the same free values). -/
def Obligations.TheModelsOwnFieldsStayApart : Prop :=
  ∀ (i : Instr) (s : State) (a : Byte) (old records : List Byte) (v : Bool) (w : BitVec 3) (x : BitVec 2),
    ∃ t t', exec i s = .next t ∧
      exec i { s with csAcc := a, tx := old, trace := records, fValid := v, dWhy := w, xCode := x } = .next t' ∧
      t.cfg = s.cfg ∧ t.trace = s.trace ∧ (t.freeIdx = s.freeIdx ∨ t.freeIdx = s.freeIdx + 1) ∧
      t'.trace = records ∧ t'.buf = t.buf ∧ t'.xCode = t.xCode ∧
      t'.fKind = t.fKind ∧ t'.fLen = t.fLen ∧ t'.fPayload = t.fPayload ∧ t'.freeIdx = t.freeIdx

/-- R24: the derived outputs, functions of BUF. -/
def Obligations.DerivedOutputsFollowTheBuffer : Prop :=
  (∀ s : State, blen s = s.buf.length ∧ (bufEmpty s = true ↔ blen s = 0) ∧
    (∀ c : Nat, s.cfg.bufCap = .finite c →
      (bufFull s = true ↔ blen s = c) ∧ (s.buf.length ≤ c → blen s < 2 ^ Nat.clog 2 (c + 1))) ∧
    (s.cfg.bufCap = .inf → bufFull s = false)) ∧
  Nat.clog 2 (65540 + 1) = 17
end

