-- ==== Sys2Proof/Laws/Ops.lean ====
section
/-! SUPPORT. One statement of all there is to know about each shared operation over bytes: the fold, the sync search, the length field, the reads. -/

namespace Sys2Proof.Machine

/-- The fold from any accumulator is the fold from 0 exclusive-ored in. -/
theorem foldl_xor_eq (bs : List Byte) (a : Byte) :
    bs.foldl (fun acc b => acc ^^^ b) a = a ^^^ xorfold bs := by
  induction bs generalizing a with
  | nil => simp [xorfold]
  | cons b bs ih =>
    have h : xorfold (b :: bs) = bs.foldl (fun acc b => acc ^^^ b) (0x00#8 ^^^ b) := rfl
    rw [h, List.foldl_cons, ih, ih, BitVec.zero_xor, BitVec.xor_assoc]

@[simp] theorem xorfold_nil : xorfold [] = 0x00#8 := rfl

@[simp] theorem xorfold_cons (b : Byte) (bs : List Byte) : xorfold (b :: bs) = b ^^^ xorfold bs := by
  rw [xorfold, List.foldl_cons, foldl_xor_eq, BitVec.zero_xor]

theorem xorfold_append (s t : List Byte) : xorfold (s ++ t) = xorfold s ^^^ xorfold t := by
  rw [xorfold, List.foldl_append, foldl_xor_eq]; rfl

/-- A covered sequence and its own fold together fold to zero (R83). -/
theorem xorfold_append_self (s : List Byte) : xorfold (s ++ [xorfold s]) = 0x00#8 := by
  simp [xorfold_append]

theorem firstSync_eq_none {bs : List Byte} : firstSync bs = none ↔ syncByte ∉ bs := by
  induction bs with
  | nil => simp [firstSync]
  | cons b bs ih =>
    by_cases h : b = syncByte <;> simp [firstSync, h, ih, eq_comm (a := syncByte) (b := b)]

/-- The sync search skips bytes that are no sync (R100). -/
theorem firstSync_append {g : List Byte} (h : syncByte ∉ g) (s : List Byte) :
    firstSync (g ++ s) = (firstSync s).map (· + g.length) := by
  induction g with
  | nil => simp
  | cons b g ih =>
    obtain ⟨hb, hg⟩ := not_or.mp (List.mem_cons.not.mp h)
    simp [firstSync, Ne.symm hb, ih hg, Function.comp_def, Nat.add_assoc]

/-- What the sync search finds: the bytes before are no sync, the byte there is one (R10, R100). -/
theorem firstSync_eq_some {bs : List Byte} {i : Nat} :
    firstSync bs = some i ↔ ∃ g s, bs = g ++ syncByte :: s ∧ syncByte ∉ g ∧ g.length = i := by
  constructor
  · intro h
    induction bs generalizing i with
    | nil => simp [firstSync] at h
    | cons b bs ih =>
      by_cases hb : b = syncByte
      · obtain rfl : 0 = i := by simpa [firstSync, hb] using h
        exact ⟨[], bs, by simp [hb], by simp, rfl⟩
      · obtain ⟨j, hj, rfl⟩ : ∃ j, firstSync bs = some j ∧ j + 1 = i := by
          simpa [firstSync, hb] using h
        obtain ⟨g, s, rfl, hg, rfl⟩ := ih hj
        exact ⟨b :: g, s, rfl, by simp [Ne.symm hb, hg], rfl⟩
  · rintro ⟨g, s, rfl, hg, rfl⟩
    simp [firstSync_append hg, firstSync]

/-- The length field as a number (R39): `byte[2] + 256 * byte[3]`. -/
theorem lenOf_toNat (lo hi : Byte) : (lenOf lo hi).toNat = lo.toNat + 256 * hi.toNat := by
  have hlo := lo.isLt
  have hhi := hi.isLt
  have h : hi.toNat <<< 8 = 256 * hi.toNat := by rw [Nat.shiftLeft_eq]; omega
  simp only [lenOf, BitVec.toNat_or, BitVec.toNat_shiftLeft, BitVec.toNat_setWidth]
  rw [Nat.mod_eq_of_lt (by omega : lo.toNat < 2 ^ 16), Nat.mod_eq_of_lt (by omega : hi.toNat < 2 ^ 16),
    h, Nat.mod_eq_of_lt (by omega), Nat.or_comm, show 256 * hi.toNat = 2 ^ 8 * hi.toNat by rfl,
    ← Nat.two_pow_add_eq_or_of_lt (by omega)]
  omega

/-- The length field read back from the two bytes the encoder writes (R58). -/
theorem lenOf_lenLo_lenHi {n : Nat} (h : n ≤ maxPayload) : (lenOf (lenLo n) (lenHi n)).toNat = n := by
  simp only [lenOf_toNat, lenLo, lenHi, BitVec.toNat_ofNat, maxPayload] at *
  omega

theorem lenLo_lenOf (lo hi : Byte) : lenLo (lenOf lo hi).toNat = lo := by
  apply BitVec.eq_of_toNat_eq
  have := lo.isLt
  simp only [lenOf_toNat, lenLo, BitVec.toNat_ofNat]
  omega

theorem lenHi_lenOf (lo hi : Byte) : lenHi (lenOf lo hi).toNat = hi := by
  apply BitVec.eq_of_toNat_eq
  have := lo.isLt
  have := hi.isLt
  simp only [lenOf_toNat, lenHi, BitVec.toNat_ofNat]
  omega

/-- ENC's count read back from the four bytes of its record (R68). -/
theorem countOf_countByte {n : Nat} (h : n < 2 ^ 32) :
    countOf (countByte 0 n) (countByte 1 n) (countByte 2 n) (countByte 3 n) = n := by
  simp only [countOf, countByte, BitVec.toNat_ofNat]
  omega

theorem countByte_countOf (a b c d : Byte) :
    countByte 0 (countOf a b c d) = a ∧ countByte 1 (countOf a b c d) = b ∧
      countByte 2 (countOf a b c d) = c ∧ countByte 3 (countOf a b c d) = d := by
  have := a.isLt
  have := b.isLt
  have := c.isLt
  have := d.isLt
  refine ⟨?_, ?_, ?_, ?_⟩ <;> apply BitVec.eq_of_toNat_eq <;>
    simp only [countOf, countByte, BitVec.toNat_ofNat] <;> omega

@[simp] theorem wireFrame_length (kind : Byte) (payload : List Byte) (c : Byte) :
    (wireFrame kind payload c).length = payload.length + 5 := by
  simp [wireFrame]

/-- A wire frame byte by byte from its sync (R55). -/
theorem wireFrame_eq (kind : Byte) (payload : List Byte) (c : Byte) :
    wireFrame kind payload c =
      syncByte :: kind :: lenLo payload.length :: lenHi payload.length :: (payload ++ [c]) := by
  simp [wireFrame]

theorem kindOfByte_kindCode (k : NamedKind) : kindOfByte (kindCode k) = some k := by
  cases k <;> decide

/-- A kind that has a name is that name's value (R62). -/
theorem kindCode_of_kindOfByte {b : Byte} {k : NamedKind} (h : kindOfByte b = some k) : kindCode k = b := by
  unfold kindOfByte at h
  iterate 11
    split at h
    next hb => cases h; exact hb.symm
  cases h

end Sys2Proof.Machine
end

