-- ==== Sys2Proof/Laws/State.lean ====
section
/-! SUPPORT. One lemma per field per update of State, so that no later proof unfolds a record update. -/

namespace Sys2Proof.Machine

/-! `emit` appends to TX alone (R38). -/

@[simp] theorem emit_cfg (bs : List Byte) (s : State) : (emit bs s).cfg = s.cfg := rfl
@[simp] theorem emit_csAcc (bs : List Byte) (s : State) : (emit bs s).csAcc = s.csAcc := rfl
@[simp] theorem emit_buf (bs : List Byte) (s : State) : (emit bs s).buf = s.buf := rfl
@[simp] theorem emit_fValid (bs : List Byte) (s : State) : (emit bs s).fValid = s.fValid := rfl
@[simp] theorem emit_fKind (bs : List Byte) (s : State) : (emit bs s).fKind = s.fKind := rfl
@[simp] theorem emit_fLen (bs : List Byte) (s : State) : (emit bs s).fLen = s.fLen := rfl
@[simp] theorem emit_fPayload (bs : List Byte) (s : State) : (emit bs s).fPayload = s.fPayload := rfl
@[simp] theorem emit_dWhy (bs : List Byte) (s : State) : (emit bs s).dWhy = s.dWhy := rfl
@[simp] theorem emit_xCode (bs : List Byte) (s : State) : (emit bs s).xCode = s.xCode := rfl
@[simp] theorem emit_tx (bs : List Byte) (s : State) : (emit bs s).tx = s.tx ++ bs := rfl
@[simp] theorem emit_freeIdx (bs : List Byte) (s : State) : (emit bs s).freeIdx = s.freeIdx := rfl
@[simp] theorem emit_trace (bs : List Byte) (s : State) : (emit bs s).trace = s.trace := rfl

/-! `complete` writes X_CODE alone (R12). -/

@[simp] theorem complete_cfg (s : State) : (complete s).cfg = s.cfg := rfl
@[simp] theorem complete_csAcc (s : State) : (complete s).csAcc = s.csAcc := rfl
@[simp] theorem complete_buf (s : State) : (complete s).buf = s.buf := rfl
@[simp] theorem complete_fValid (s : State) : (complete s).fValid = s.fValid := rfl
@[simp] theorem complete_fKind (s : State) : (complete s).fKind = s.fKind := rfl
@[simp] theorem complete_fLen (s : State) : (complete s).fLen = s.fLen := rfl
@[simp] theorem complete_fPayload (s : State) : (complete s).fPayload = s.fPayload := rfl
@[simp] theorem complete_dWhy (s : State) : (complete s).dWhy = s.dWhy := rfl
@[simp] theorem complete_xCode (s : State) : (complete s).xCode = xOk := rfl
@[simp] theorem complete_tx (s : State) : (complete s).tx = s.tx := rfl
@[simp] theorem complete_freeIdx (s : State) : (complete s).freeIdx = s.freeIdx := rfl
@[simp] theorem complete_trace (s : State) : (complete s).trace = s.trace := rfl

/-! `raise` writes X_CODE alone (R148). -/

@[simp] theorem raise_cfg (code : BitVec 2) (s : State) : (raise code s).cfg = s.cfg := rfl
@[simp] theorem raise_csAcc (code : BitVec 2) (s : State) : (raise code s).csAcc = s.csAcc := rfl
@[simp] theorem raise_buf (code : BitVec 2) (s : State) : (raise code s).buf = s.buf := rfl
@[simp] theorem raise_fValid (code : BitVec 2) (s : State) : (raise code s).fValid = s.fValid := rfl
@[simp] theorem raise_fKind (code : BitVec 2) (s : State) : (raise code s).fKind = s.fKind := rfl
@[simp] theorem raise_fLen (code : BitVec 2) (s : State) : (raise code s).fLen = s.fLen := rfl
@[simp] theorem raise_fPayload (code : BitVec 2) (s : State) : (raise code s).fPayload = s.fPayload := rfl
@[simp] theorem raise_dWhy (code : BitVec 2) (s : State) : (raise code s).dWhy = s.dWhy := rfl
@[simp] theorem raise_xCode (code : BitVec 2) (s : State) : (raise code s).xCode = code := rfl
@[simp] theorem raise_tx (code : BitVec 2) (s : State) : (raise code s).tx = s.tx := rfl
@[simp] theorem raise_freeIdx (code : BitVec 2) (s : State) : (raise code s).freeIdx = s.freeIdx := rfl
@[simp] theorem raise_trace (code : BitVec 2) (s : State) : (raise code s).trace = s.trace := rfl

/-! `forgetFrame` writes the frame registers and the index of free values alone (R17). -/

@[simp] theorem forgetFrame_cfg (s : State) : (forgetFrame s).cfg = s.cfg := rfl
@[simp] theorem forgetFrame_csAcc (s : State) : (forgetFrame s).csAcc = s.csAcc := rfl
@[simp] theorem forgetFrame_buf (s : State) : (forgetFrame s).buf = s.buf := rfl
@[simp] theorem forgetFrame_fValid (s : State) : (forgetFrame s).fValid = s.fValid := rfl
@[simp] theorem forgetFrame_fKind (s : State) : (forgetFrame s).fKind = Config.freeKind s.freeIdx := rfl
@[simp] theorem forgetFrame_fLen (s : State) : (forgetFrame s).fLen = Config.freeLen s.freeIdx := rfl
@[simp] theorem forgetFrame_fPayload (s : State) : (forgetFrame s).fPayload = Config.freePayload s.freeIdx := rfl
@[simp] theorem forgetFrame_dWhy (s : State) : (forgetFrame s).dWhy = s.dWhy := rfl
@[simp] theorem forgetFrame_xCode (s : State) : (forgetFrame s).xCode = s.xCode := rfl
@[simp] theorem forgetFrame_tx (s : State) : (forgetFrame s).tx = s.tx := rfl
@[simp] theorem forgetFrame_freeIdx (s : State) : (forgetFrame s).freeIdx = s.freeIdx + 1 := rfl
@[simp] theorem forgetFrame_trace (s : State) : (forgetFrame s).trace = s.trace := rfl

/-! `resetBlock` leaves the parameters, TX and the trace alone (R158). -/

@[simp] theorem resetBlock_cfg (s : State) : (resetBlock s).cfg = s.cfg := rfl
@[simp] theorem resetBlock_csAcc (s : State) : (resetBlock s).csAcc = 0x00#8 := rfl
@[simp] theorem resetBlock_buf (s : State) : (resetBlock s).buf = [] := rfl
@[simp] theorem resetBlock_fValid (s : State) : (resetBlock s).fValid = false := rfl
@[simp] theorem resetBlock_fKind (s : State) : (resetBlock s).fKind = Config.freeKind s.freeIdx := rfl
@[simp] theorem resetBlock_fLen (s : State) : (resetBlock s).fLen = Config.freeLen s.freeIdx := rfl
@[simp] theorem resetBlock_fPayload (s : State) : (resetBlock s).fPayload = Config.freePayload s.freeIdx := rfl
@[simp] theorem resetBlock_dWhy (s : State) : (resetBlock s).dWhy = 0#3 := rfl
@[simp] theorem resetBlock_xCode (s : State) : (resetBlock s).xCode = xOk := rfl
@[simp] theorem resetBlock_tx (s : State) : (resetBlock s).tx = s.tx := rfl
@[simp] theorem resetBlock_freeIdx (s : State) : (resetBlock s).freeIdx = s.freeIdx + 1 := rfl
@[simp] theorem resetBlock_trace (s : State) : (resetBlock s).trace = s.trace := rfl

/-! `pushByte` writes BUF and X_CODE alone (R96). -/

@[simp] theorem pushByte_cfg (b : Byte) (s : State) : (pushByte b s).cfg = s.cfg := by
  unfold pushByte; split <;> rfl
@[simp] theorem pushByte_csAcc (b : Byte) (s : State) : (pushByte b s).csAcc = s.csAcc := by
  unfold pushByte; split <;> rfl
@[simp] theorem pushByte_fValid (b : Byte) (s : State) : (pushByte b s).fValid = s.fValid := by
  unfold pushByte; split <;> rfl
@[simp] theorem pushByte_fKind (b : Byte) (s : State) : (pushByte b s).fKind = s.fKind := by
  unfold pushByte; split <;> rfl
@[simp] theorem pushByte_fLen (b : Byte) (s : State) : (pushByte b s).fLen = s.fLen := by
  unfold pushByte; split <;> rfl
@[simp] theorem pushByte_fPayload (b : Byte) (s : State) : (pushByte b s).fPayload = s.fPayload := by
  unfold pushByte; split <;> rfl
@[simp] theorem pushByte_dWhy (b : Byte) (s : State) : (pushByte b s).dWhy = s.dWhy := by
  unfold pushByte; split <;> rfl
@[simp] theorem pushByte_tx (b : Byte) (s : State) : (pushByte b s).tx = s.tx := by
  unfold pushByte; split <;> rfl
@[simp] theorem pushByte_freeIdx (b : Byte) (s : State) : (pushByte b s).freeIdx = s.freeIdx := by
  unfold pushByte; split <;> rfl
@[simp] theorem pushByte_trace (b : Byte) (s : State) : (pushByte b s).trace = s.trace := by
  unfold pushByte; split <;> rfl

/-! `decAppend` writes BUF and X_CODE alone (R71, R96). -/

@[simp] theorem decAppend_cfg (bs : List Byte) (s : State) : (decAppend bs s).cfg = s.cfg := by
  induction bs generalizing s with
  | nil => rfl
  | cons b bs ih => simp only [decAppend]; split <;> simp [*]
@[simp] theorem decAppend_csAcc (bs : List Byte) (s : State) : (decAppend bs s).csAcc = s.csAcc := by
  induction bs generalizing s with
  | nil => rfl
  | cons b bs ih => simp only [decAppend]; split <;> simp [*]
@[simp] theorem decAppend_fValid (bs : List Byte) (s : State) : (decAppend bs s).fValid = s.fValid := by
  induction bs generalizing s with
  | nil => rfl
  | cons b bs ih => simp only [decAppend]; split <;> simp [*]
@[simp] theorem decAppend_fKind (bs : List Byte) (s : State) : (decAppend bs s).fKind = s.fKind := by
  induction bs generalizing s with
  | nil => rfl
  | cons b bs ih => simp only [decAppend]; split <;> simp [*]
@[simp] theorem decAppend_fLen (bs : List Byte) (s : State) : (decAppend bs s).fLen = s.fLen := by
  induction bs generalizing s with
  | nil => rfl
  | cons b bs ih => simp only [decAppend]; split <;> simp [*]
@[simp] theorem decAppend_fPayload (bs : List Byte) (s : State) : (decAppend bs s).fPayload = s.fPayload := by
  induction bs generalizing s with
  | nil => rfl
  | cons b bs ih => simp only [decAppend]; split <;> simp [*]
@[simp] theorem decAppend_dWhy (bs : List Byte) (s : State) : (decAppend bs s).dWhy = s.dWhy := by
  induction bs generalizing s with
  | nil => rfl
  | cons b bs ih => simp only [decAppend]; split <;> simp [*]
@[simp] theorem decAppend_tx (bs : List Byte) (s : State) : (decAppend bs s).tx = s.tx := by
  induction bs generalizing s with
  | nil => rfl
  | cons b bs ih => simp only [decAppend]; split <;> simp [*]
@[simp] theorem decAppend_freeIdx (bs : List Byte) (s : State) : (decAppend bs s).freeIdx = s.freeIdx := by
  induction bs generalizing s with
  | nil => rfl
  | cons b bs ih => simp only [decAppend]; split <;> simp [*]
@[simp] theorem decAppend_trace (bs : List Byte) (s : State) : (decAppend bs s).trace = s.trace := by
  induction bs generalizing s with
  | nil => rfl
  | cons b bs ih => simp only [decAppend]; split <;> simp [*]

/-! `tryOnce` leaves the parameters, CS_ACC, TX and the trace alone, and always completes (R31, R97). -/

@[simp] theorem tryOnce_cfg (s : State) : (tryOnce s).cfg = s.cfg := by
  unfold tryOnce writeAttempt; split <;> rfl
@[simp] theorem tryOnce_csAcc (s : State) : (tryOnce s).csAcc = s.csAcc := by
  unfold tryOnce writeAttempt; split <;> rfl
@[simp] theorem tryOnce_tx (s : State) : (tryOnce s).tx = s.tx := by
  unfold tryOnce writeAttempt; split <;> rfl
@[simp] theorem tryOnce_trace (s : State) : (tryOnce s).trace = s.trace := by
  unfold tryOnce writeAttempt; split <;> rfl
@[simp] theorem tryOnce_xCode (s : State) : (tryOnce s).xCode = xOk := rfl
@[simp] theorem tryOnce_buf (s : State) : (tryOnce s).buf = s.buf.drop (tryDecode s.buf).dropped := by
  unfold tryOnce writeAttempt; split <;> rfl
@[simp] theorem tryOnce_dWhy (s : State) : (tryOnce s).dWhy = exitCode (tryDecode s.buf).exit := by
  unfold tryOnce writeAttempt; split <;> rfl
@[simp] theorem tryOnce_fValid (s : State) : (tryOnce s).fValid = (tryDecode s.buf).frame.isSome := by
  unfold tryOnce writeAttempt; split <;> simp_all [forgetFrame, complete]

end Sys2Proof.Machine
end

