-- ==== Sys2Proof/Laws/Decoder.lean ====
section
/-! SUPPORT. Everything one decode attempt can do (R98 to R108), and what DEC_APPEND does where the buffer has room and where it has not (R71). -/

namespace Sys2Proof.Machine

/-- Exit SHORT (R98). -/
theorem tryDecode_short {B : List Byte} (h : B.length < 5) : tryDecode B = ⟨.short, 0, none⟩ := by
  simp [tryDecode, minFrame, h]

/-- Exit NOSYNC (R99). -/
theorem tryDecode_noSync {B : List Byte} (h : 5 ≤ B.length) (hs : syncByte ∉ B) :
    tryDecode B = ⟨.noSync, B.length, none⟩ := by
  simp [tryDecode, minFrame, Nat.not_lt.mpr h, firstSync_eq_none.mpr hs]

/-- From the first sync on, the attempt is one on the buffer from that sync (R100). -/
theorem tryDecode_sync {g S : List Byte} (hg : syncByte ∉ g) (h : 5 ≤ (g ++ syncByte :: S).length) :
    tryDecode (g ++ syncByte :: S) = attemptFrom g.length (syncByte :: S) := by
  have hf : firstSync (g ++ syncByte :: S) = some g.length := firstSync_eq_some.mpr ⟨g, S, rfl, hg, rfl⟩
  rw [tryDecode, if_neg (by simpa [minFrame] using h), hf]
  simp [bufDrop]

/-- Exit SHORT_SYNC (R101). -/
theorem attemptFrom_short {i : Nat} {S : List Byte} (h : S.length < 5) :
    attemptFrom i S = ⟨.shortSync, i, none⟩ := by
  simp [attemptFrom, minFrame, h]

/-- Exit INCOMPLETE (R103). -/
theorem attemptFrom_incomplete {i : Nat} {kind lo hi : Byte} {body : List Byte}
    (h5 : 1 ≤ body.length) (h : body.length < (lenOf lo hi).toNat + 1) :
    attemptFrom i (syncByte :: kind :: lo :: hi :: body) = ⟨.incomplete, i, none⟩ := by
  have hS : ¬ (syncByte :: kind :: lo :: hi :: body).length < minFrame := by simp [minFrame]; omega
  have ht : (syncByte :: kind :: lo :: hi :: body).length < totalOf (lenOf lo hi) := by
    simp only [List.length_cons, totalOf, hdrLen, csumLen]; omega
  simp only [attemptFrom, dif_neg hS, memRead2]
  exact dif_pos ht

/-- Exits FRAME and RESYNC (R104 to R106): all of the candidate is there, and the checksum decides. -/
theorem attemptFrom_complete {i : Nat} {kind lo hi c : Byte} {payload rest : List Byte}
    (h : payload.length = (lenOf lo hi).toNat) :
    attemptFrom i (syncByte :: kind :: lo :: hi :: (payload ++ c :: rest)) =
      if xorfold (kind :: lo :: hi :: payload) = c then
        ⟨.frame, i + (payload.length + 5), some ⟨kind, lenOf lo hi, payload⟩⟩
      else ⟨.resync, i + 1, none⟩ := by
  have hS : ¬ (syncByte :: kind :: lo :: hi :: (payload ++ c :: rest)).length < minFrame := by
    simp [minFrame]; omega
  have ht : ¬ (syncByte :: kind :: lo :: hi :: (payload ++ c :: rest)).length < totalOf (lenOf lo hi) := by
    simp only [List.length_cons, List.length_append, totalOf, hdrLen, csumLen, h]; omega
  have hp : slice (syncByte :: kind :: lo :: hi :: (payload ++ c :: rest)) 4 (4 + payload.length) = payload := by
    simp [slice, Nat.add_comm 4]
  have hb : slice (syncByte :: kind :: lo :: hi :: (payload ++ c :: rest)) 1 (4 + payload.length) =
      kind :: lo :: hi :: payload := by
    simp [slice, Nat.add_comm 4]
  have hc : (syncByte :: kind :: lo :: hi :: (payload ++ c :: rest))[4 + payload.length]'(by simp; omega) = c := by
    simp [Nat.add_comm 4]
  have htot : totalOf (lenOf lo hi) = payload.length + 5 := by
    simp only [totalOf, hdrLen, csumLen, h]; omega
  simp only [attemptFrom, dif_neg hS, memRead1, memRead2]
  refine (dif_neg ht).trans ?_
  simp only [List.getElem_cons_succ, List.getElem_cons_zero, ← h, hp, hb, hc, htot]

/-- One decode attempt takes one of six exits, and this is all it decides (R108). -/
theorem tryDecode_cases (B : List Byte) :
    (B.length < 5 ∧ tryDecode B = ⟨.short, 0, none⟩) ∨
    (5 ≤ B.length ∧ syncByte ∉ B ∧ tryDecode B = ⟨.noSync, B.length, none⟩) ∨
    (∃ g S, B = g ++ syncByte :: S ∧ syncByte ∉ g ∧ 5 ≤ B.length ∧ S.length < 4 ∧
      tryDecode B = ⟨.shortSync, g.length, none⟩) ∨
    (∃ g kind lo hi body, B = g ++ syncByte :: kind :: lo :: hi :: body ∧ syncByte ∉ g ∧
      1 ≤ body.length ∧ body.length < (lenOf lo hi).toNat + 1 ∧
      tryDecode B = ⟨.incomplete, g.length, none⟩) ∨
    (∃ g kind lo hi payload c rest,
      B = g ++ syncByte :: kind :: lo :: hi :: (payload ++ c :: rest) ∧ syncByte ∉ g ∧
      payload.length = (lenOf lo hi).toNat ∧ xorfold (kind :: lo :: hi :: payload) = c ∧
      tryDecode B = ⟨.frame, g.length + (payload.length + 5), some ⟨kind, lenOf lo hi, payload⟩⟩) ∨
    (∃ g kind lo hi payload c rest,
      B = g ++ syncByte :: kind :: lo :: hi :: (payload ++ c :: rest) ∧ syncByte ∉ g ∧
      payload.length = (lenOf lo hi).toNat ∧ xorfold (kind :: lo :: hi :: payload) ≠ c ∧
      tryDecode B = ⟨.resync, g.length + 1, none⟩) := by
  by_cases h5 : B.length < 5
  · exact .inl ⟨h5, tryDecode_short h5⟩
  have h5' : 5 ≤ B.length := Nat.le_of_not_lt h5
  by_cases hs : syncByte ∈ B
  swap
  · exact .inr (.inl ⟨h5', hs, tryDecode_noSync h5' hs⟩)
  refine .inr (.inr ?_)
  cases hf : firstSync B with
  | none => exact absurd hs (firstSync_eq_none.mp hf)
  | some i =>
    obtain ⟨g, S, rfl, hg, rfl⟩ := firstSync_eq_some.mp hf
    rw [tryDecode_sync hg h5']
    by_cases hS : S.length < 4
    · exact .inl ⟨g, S, rfl, hg, h5', hS, attemptFrom_short (by simp only [List.length_cons]; omega)⟩
    · obtain ⟨kind, lo, hi, b, body, rfl⟩ : ∃ kind lo hi b body, S = kind :: lo :: hi :: b :: body := by
        match S, hS with
        | a :: b :: c :: d :: e, _ => exact ⟨a, b, c, d, e, rfl⟩
        | [], h => simp at h
        | [_], h => simp at h
        | [_, _], h => simp at h
        | [_, _, _], h => simp at h
      refine .inr ?_
      by_cases hl : (b :: body).length < (lenOf lo hi).toNat + 1
      · exact .inl ⟨g, kind, lo, hi, b :: body, rfl, hg, by simp, hl, attemptFrom_incomplete (by simp) hl⟩
      · refine .inr ?_
        have hd : (lenOf lo hi).toNat < (b :: body).length := by omega
        obtain ⟨payload, c, rest, hbody, hp⟩ : ∃ payload c rest, b :: body = payload ++ c :: rest ∧
            payload.length = (lenOf lo hi).toNat :=
          ⟨(b :: body).take (lenOf lo hi).toNat, (b :: body)[(lenOf lo hi).toNat],
            (b :: body).drop ((lenOf lo hi).toNat + 1), by
              rw [← List.drop_eq_getElem_cons hd, List.take_append_drop], by
              rw [List.length_take]; omega⟩
        rw [hbody, attemptFrom_complete hp]
        by_cases hx : xorfold (kind :: lo :: hi :: payload) = c
        · exact .inl ⟨g, kind, lo, hi, payload, c, rest, rfl, hg, hp, hx, if_pos hx⟩
        · exact .inr ⟨g, kind, lo, hi, payload, c, rest, rfl, hg, hp, hx, if_neg hx⟩

/-- An attempt never drops more than the buffer holds (R42). -/
theorem tryDecode_dropped_le (B : List Byte) : (tryDecode B).dropped ≤ B.length := by
  rcases tryDecode_cases B with ⟨_, h⟩ | ⟨_, _, h⟩ | ⟨g, S, rfl, _, _, _, h⟩ | ⟨g, k, lo, hi, b, rfl, _, _, _, h⟩ |
    ⟨g, k, lo, hi, p, c, r, rfl, _, _, _, h⟩ | ⟨g, k, lo, hi, p, c, r, rfl, _, _, _, h⟩ <;>
    rw [h] <;> simp

/-- A returned frame's payload has as many bytes as its length field says (R29(b)), and a frame is returned at exit FRAME alone (R16). -/
theorem tryDecode_frame (B : List Byte) :
    (∀ f, (tryDecode B).frame = some f → f.payload.length = f.length.toNat) ∧
    ((tryDecode B).frame.isSome = true ↔ (tryDecode B).exit = .frame) := by
  rcases tryDecode_cases B with ⟨_, h⟩ | ⟨_, _, h⟩ | ⟨g, S, hB, _, _, _, h⟩ | ⟨g, k, lo, hi, b, hB, _, _, _, h⟩ |
    ⟨g, k, lo, hi, p, c, r, hB, _, hp, _, h⟩ | ⟨g, k, lo, hi, p, c, r, hB, _, _, _, h⟩ <;>
    rw [h] <;> simp
  exact hp

/-- The registers after an attempt that returns a frame (R105). -/
theorem tryOnce_of_frame {s : State} {d : Nat} {e : Exit} {f : Frame} (h : tryDecode s.buf = ⟨e, d, some f⟩) :
    tryOnce s = { s with
      buf := s.buf.drop d, fValid := true, fKind := f.kind, fLen := f.length, fPayload := f.payload
      dWhy := exitCode e, xCode := xOk } := by
  simp [tryOnce, writeAttempt, h, complete, bufDrop]

/-- The registers after an attempt that returns none (R107). -/
theorem tryOnce_of_none {s : State} {d : Nat} {e : Exit} (h : tryDecode s.buf = ⟨e, d, none⟩) :
    tryOnce s = { forgetFrame s with
      buf := s.buf.drop d, fValid := false, dWhy := exitCode e, xCode := xOk } := by
  simp [tryOnce, writeAttempt, h, complete, bufDrop, forgetFrame]

/-- BUF_FULL is: no room for one more byte, in a buffer within its capacity (R24, R41). -/
theorem bufFull_eq_false_of_hasRoom {s : State} {k : Nat} (h : s.cfg.bufCap.hasRoom s.buf.length (k + 1) = true) :
    bufFull s = false := by
  unfold bufFull blen
  unfold BufCap.hasRoom at h
  split at h <;> simp_all
  omega

/-- A push into a buffer with room (R96). -/
theorem pushByte_of_hasRoom {s : State} {b : Byte} {k : Nat}
    (h : s.cfg.bufCap.hasRoom s.buf.length (k + 1) = true) :
    pushByte b s = { s with buf := s.buf ++ [b], xCode := xOk } := by
  simp [pushByte, bufFull_eq_false_of_hasRoom h, complete, bufAppend]

/-- DEC_APPEND where there is room for every byte (R71). -/
theorem decAppend_of_hasRoom {s : State} {bs : List Byte} (hne : bs ≠ [])
    (h : s.cfg.bufCap.hasRoom s.buf.length bs.length = true) :
    decAppend bs s = { s with buf := s.buf ++ bs, xCode := xOk } := by
  induction bs generalizing s with
  | nil => exact absurd rfl hne
  | cons b bs ih =>
    rw [decAppend, if_neg (by simp [bufFull_eq_false_of_hasRoom h]), pushByte_of_hasRoom h]
    cases bs with
    | nil => rfl
    | cons b' bs =>
      rw [ih (by simp)]
      · simp
      · unfold BufCap.hasRoom at h ⊢
        split at h <;> simp_all
        omega

/-- DEC_APPEND where a push is refused (R71): the bytes before that one are taken, and the code is RX_FULL. -/
theorem decAppend_of_full {s : State} {bs : List Byte} {c : Nat} (hc : s.cfg.bufCap = .finite c)
    (hle : s.buf.length ≤ c) (h : c < s.buf.length + bs.length) :
    decAppend bs s = { s with buf := s.buf ++ bs.take (c - s.buf.length), xCode := xRxFull } := by
  induction bs generalizing s with
  | nil => simp at h; omega
  | cons b bs ih =>
    by_cases hf : s.buf.length = c
    · simp [decAppend, bufFull, blen, hc, hf, raise]
    · have hr : s.cfg.bufCap.hasRoom s.buf.length (0 + 1) = true := by simp [BufCap.hasRoom, hc]; omega
      rw [decAppend, if_neg (by simp [bufFull_eq_false_of_hasRoom hr]), pushByte_of_hasRoom hr,
        ih (s := { s with buf := s.buf ++ [b], xCode := xOk }) hc]
      · obtain ⟨n, hn⟩ : ∃ n, c - s.buf.length = n + 1 := ⟨c - s.buf.length - 1, by omega⟩
        simp [hn, show c - (s.buf.length + 1) = n by omega]
      · simp; omega
      · simp at h ⊢; omega

end Sys2Proof.Machine
end

