-- ==== Sys2Proof/Laws/Memory.lean ====
section
/-! SUPPORT. Every operation over the buffer keeps it well formed, and the reset buffer is (R15, R29(a)). -/

namespace Sys2Proof.Machine

theorem memory_wf_reset : Memory.wf State.reset.cfg State.reset.buf = true := by decide

theorem memory_wf_nil (c : Config) : Memory.wf c [] = true := by
  simp only [Memory.wf, BufCap.hasRoom]; split <;> simp

/-- `BufDrop` keeps the buffer within its capacity (R42). -/
theorem memory_wf_bufDrop {c : Config} {buf : List Byte} (n : Nat) (h : Memory.wf c buf = true) :
    Memory.wf c (bufDrop n buf) = true := by
  simp only [Memory.wf, BufCap.hasRoom] at *
  split at h <;> simp_all [bufDrop]
  omega

/-- `BufAppend` into a buffer that is not full keeps it within its capacity (R41). -/
theorem memory_wf_pushByte {s : State} (b : Byte) (h : Memory.wf s.cfg s.buf = true) :
    Memory.wf (pushByte b s).cfg (pushByte b s).buf = true := by
  simp only [pushByte_cfg]
  cases hf : bufFull s with
  | true => simpa [pushByte, hf] using h
  | false =>
    have hb : (pushByte b s).buf = s.buf ++ [b] := by simp [pushByte, hf, bufAppend]
    rw [hb]
    unfold Memory.wf at h ⊢
    unfold bufFull blen at hf
    cases hc : s.cfg.bufCap with
    | inf => rfl
    | finite c =>
      simp only [hc, BufCap.hasRoom, decide_eq_true_eq, decide_eq_false_iff_not, List.length_append,
        List.length_singleton] at h hf ⊢
      omega

theorem memory_wf_decAppend {s : State} (bs : List Byte) (h : Memory.wf s.cfg s.buf = true) :
    Memory.wf (decAppend bs s).cfg (decAppend bs s).buf = true := by
  induction bs generalizing s with
  | nil => exact h
  | cons b bs ih =>
    simp only [decAppend]
    split
    · simpa using h
    · exact ih (memory_wf_pushByte b h)

theorem memory_wf_tryOnce {s : State} (h : Memory.wf s.cfg s.buf = true) :
    Memory.wf (tryOnce s).cfg (tryOnce s).buf = true := by
  rw [tryOnce_cfg, tryOnce_buf]; exact memory_wf_bufDrop _ h

theorem memory_wf_receiveFrame {s : State} (bs : List Byte) (h : Memory.wf s.cfg s.buf = true) :
    Memory.wf (receiveFrame bs s).cfg (receiveFrame bs s).buf = true := by
  unfold receiveFrame
  split
  · exact memory_wf_decAppend bs h
  · exact memory_wf_tryOnce (memory_wf_decAppend bs h)

end Sys2Proof.Machine
end

