-- ==== Sys2Proof/Laws/PerInstr.lean ====
section
/-! SUPPORT. Decode after encode, one lemma per constructor of Instr. -/

namespace Sys2Proof.Laws.RoundTrip

open Sys2Proof.Machine

/-- Decoding the record of a well-formed operation, whatever stands after it, gives the operation back. -/
def Statement (i : Instr) : Prop :=
  ∀ rest, i.wf = true → decode (encode i ++ rest) = .ok i rest

/-- A frame's bytes decode to the row of its kind (R55, R76). -/
theorem decode_wireFrame {payload : List Byte} (h : fitsLength payload = true) (kind c : Byte) (rest : List Byte) :
    decode (wireFrame kind payload c ++ rest) = .ok (frameInstr kind payload c) rest := by
  have hl := lenOf_lenLo_lenHi (n := payload.length) (by simpa [fitsLength] using h)
  have hd : decode (wireFrame kind payload c ++ rest) =
      decodeFrame (kind :: lenLo payload.length :: lenHi payload.length :: (payload ++ c :: rest)) := by
    simp only [wireFrame_eq, List.cons_append, List.append_assoc, List.nil_append]; rfl
  simp [hd, decodeFrame, hl]

theorem reset : Statement .reset := fun _ _ => rfl
theorem csClr : Statement .csClr := fun _ _ => rfl
theorem csFold (b : Byte) : Statement (.csFold b) := fun _ _ => rfl

theorem enc (kind : Byte) (payload : List Byte) : Statement (.enc kind payload) := by
  intro rest h
  have hn : payload.length < 2 ^ 32 := by simpa [Instr.wf] using h
  have hd : decode (encode (.enc kind payload) ++ rest) =
      decodeEnc (kind :: countByte 0 payload.length :: countByte 1 payload.length ::
        countByte 2 payload.length :: countByte 3 payload.length :: (payload ++ rest)) := by
    simp [encode, decode, decodeAfter]
  rw [hd, decodeEnc, countOf_countByte hn, if_neg (by simp)]
  simp

theorem decPush (b : Byte) : Statement (.decPush b) := fun _ _ => rfl
theorem decTry : Statement .decTry := fun _ _ => rfl
theorem reserved6 : Statement .reserved6 := fun _ _ => rfl
theorem reserved7 : Statement .reserved7 := fun _ _ => rfl

theorem frame (kind : Byte) (payload : List Byte) (c : Byte) : Statement (.frame kind payload c) := by
  intro rest h
  obtain ⟨hp, hk⟩ : fitsLength payload = true ∧ kindOfByte kind = none := by simpa [Instr.wf] using h
  simp [encode, decode_wireFrame hp, frameInstr, hk]

theorem frameTick (payload : List Byte) (c : Byte) : Statement (.frameTick payload c) := fun rest h => by
  rw [encode, decode_wireFrame h, frameInstr, kindOfByte_kindCode]

theorem frameTransport (payload : List Byte) (c : Byte) : Statement (.frameTransport payload c) := fun rest h => by
  rw [encode, decode_wireFrame h, frameInstr, kindOfByte_kindCode]

theorem frameVoices (payload : List Byte) (c : Byte) : Statement (.frameVoices payload c) := fun rest h => by
  rw [encode, decode_wireFrame h, frameInstr, kindOfByte_kindCode]

theorem frameMidiIn (payload : List Byte) (c : Byte) : Statement (.frameMidiIn payload c) := fun rest h => by
  rw [encode, decode_wireFrame h, frameInstr, kindOfByte_kindCode]

theorem frameCcState (payload : List Byte) (c : Byte) : Statement (.frameCcState payload c) := fun rest h => by
  rw [encode, decode_wireFrame h, frameInstr, kindOfByte_kindCode]

theorem frameDebug (payload : List Byte) (c : Byte) : Statement (.frameDebug payload c) := fun rest h => by
  rw [encode, decode_wireFrame h, frameInstr, kindOfByte_kindCode]

theorem framePlay (payload : List Byte) (c : Byte) : Statement (.framePlay payload c) := fun rest h => by
  rw [encode, decode_wireFrame h, frameInstr, kindOfByte_kindCode]

theorem frameStop (payload : List Byte) (c : Byte) : Statement (.frameStop payload c) := fun rest h => by
  rw [encode, decode_wireFrame h, frameInstr, kindOfByte_kindCode]

theorem frameRecord (payload : List Byte) (c : Byte) : Statement (.frameRecord payload c) := fun rest h => by
  rw [encode, decode_wireFrame h, frameInstr, kindOfByte_kindCode]

theorem frameTempo (payload : List Byte) (c : Byte) : Statement (.frameTempo payload c) := fun rest h => by
  rw [encode, decode_wireFrame h, frameInstr, kindOfByte_kindCode]

theorem frameReqState (payload : List Byte) (c : Byte) : Statement (.frameReqState payload c) := fun rest h => by
  rw [encode, decode_wireFrame h, frameInstr, kindOfByte_kindCode]

end Sys2Proof.Laws.RoundTrip
end

