-- ==== Sys2Proof/Laws/Pseudo.lean ====
section
/-! SUPPORT. One attempt of a drain, and sequences of operations taken apart (R49, R72). -/

namespace Sys2Proof.Machine

/-- An attempt that returns a frame goes on (R72). -/
theorem drainLoop_of_frame {k : Nat} {s : State} {f : Frame} (h : readFrame (tryOnce s) = .ok f) :
    drainLoop (k + 1) s = ⟨f :: (drainLoop k (tryOnce s)).frames, (drainLoop k (tryOnce s)).state⟩ := by
  simp [drainLoop, h]

/-- An attempt that returns none ends the drain, whatever the reason (R72, C12). -/
theorem drainLoop_of_none {k : Nat} {s : State} (h : (tryOnce s).fValid = false) :
    drainLoop (k + 1) s = ⟨[], tryOnce s⟩ := by
  simp only [drainLoop, readFrame, h]; rfl

/-- A sequence is its first part and then the rest (R49(a)). -/
theorem runOps_append (is js : List Instr) (s : State) :
    runOps (is ++ js) s = match runOps is s with
      | .next t => runOps js t
      | .fault r => .fault r
      | .refused r => .refused r := by
  induction is generalizing s with
  | nil => rfl
  | cons i is ih =>
    simp only [List.cons_append, runOps]
    cases exec i s <;> simp [ih]

end Sys2Proof.Machine
end

