-- ==== Sys2Proof/Tests/Slice0.lean ====
section
/-! SUPPORT. The model's own tests: ill-formed terms, words written out from the spec, single operations with the vectors of
95_test_vectors.md, and a witness for the hypotheses of each statement. -/

namespace Sys2Proof.Tests

open Sys2Proof.Machine

/-- The reset state with these bytes in BUF. -/
def withBuf (bytes : List Byte) : State := { State.reset with buf := bytes }

/-- The reset state with these records to be issued. -/
def withTrace (bytes : List Byte) : State := { State.reset with trace := bytes }

/-- Does the outcome lead to a next state with this property? -/
def nextHas (o : Host.Outcome State Fault Refusal) (p : State → Bool) : Bool :=
  match o with
  | .next t => p t
  | _ => false

/-- Is the outcome this refusal? -/
def refusedWith (o : Host.Outcome State Fault Refusal) (r : Refusal) : Bool :=
  match o with
  | .refused q => decide (q = r)
  | _ => false

/-- An instance with the smallest count operand (R6). -/
def narrow : Config where
  bufCap := .inf
  plenW := 17
  bufCapOk := by decide
  plenWOk := by decide

/-- Frame S1, the source's example. -/
def s1 : List Byte := [0xAA#8, 0x01#8, 0x04#8, 0x00#8, 0x2A#8, 0x00#8, 0x00#8, 0x00#8, 0x2F#8]

/-! Ill-formed terms, refused by the check; and the largest that pass (R58, R68, log entry 16). -/

theorem test_wf_enc_count_beyond_record :
    Instr.wf (.enc 0x01#8 (List.replicate (2 ^ 32) 0x00#8)) = false := by
  simp only [Instr.wf, List.length_replicate]; decide

theorem test_wf_enc_count_at_limit :
    Instr.wf (.enc 0x01#8 (List.replicate (2 ^ 32 - 1) 0x00#8)) = true := by
  simp only [Instr.wf, List.length_replicate]; decide

theorem fitsLength_replicate (n : Nat) (b : Byte) :
    fitsLength (List.replicate n b) = decide (n ≤ maxPayload) := by
  simp only [fitsLength, List.length_replicate]

theorem test_wf_frame_payload_too_long :
    Instr.wf (.frame 0xAA#8 (List.replicate 65536 0x00#8) 0x00#8) = false := by
  simp only [Instr.wf, fitsLength_replicate]; decide

theorem test_wf_frame_payload_at_limit :
    Instr.wf (.frame 0xAA#8 (List.replicate 65535 0x00#8) 0x00#8) = true := by
  simp only [Instr.wf, fitsLength_replicate]; decide

theorem test_wf_frame_of_a_named_kind :
    ∀ k ∈ [0x01#8, 0x02#8, 0x03#8, 0x04#8, 0x05#8, 0xFF#8, 0x80#8, 0x81#8, 0x82#8, 0x83#8, 0x90#8],
      Instr.wf (.frame k [] 0x00#8) = false := by decide

theorem test_wf_named_frame_payload_too_long :
    ∀ row ∈ frameRows 0x00#8 (List.replicate 65536 0x00#8) 0x00#8, Instr.wf row.1 = false := by
  simp only [frameRows, List.mem_cons, List.not_mem_nil, or_false, forall_eq_or_imp, forall_eq, Instr.wf,
    fitsLength_replicate]
  decide

/-! Words from the encodings of R55 and R68, one for every constructor. -/

theorem test_decode_reset : decode [0x00#8] = .ok .reset [] := by decide
theorem test_decode_csClr : decode [0x01#8] = .ok .csClr [] := by decide
theorem test_decode_csFold : decode [0x02#8, 0x5A#8] = .ok (.csFold 0x5A#8) [] := by decide
theorem test_decode_enc :
    decode [0x03#8, 0x81#8, 0x02#8, 0x00#8, 0x00#8, 0x00#8, 0x78#8, 0x99#8, 0x05#8] =
      .ok (.enc 0x81#8 [0x78#8, 0x99#8]) [0x05#8] := by decide
/-- The count is little-endian (R68): `00 01 00 00` is 256. -/
theorem test_decode_enc_count : countOf 0x00#8 0x01#8 0x00#8 0x00#8 = 256 := by decide
theorem test_decode_decPush : decode [0x04#8, 0xAA#8] = .ok (.decPush 0xAA#8) [] := by decide
theorem test_decode_decTry : decode [0x05#8] = .ok .decTry [] := by decide
theorem test_decode_reserved6 : decode [0x06#8] = .ok .reserved6 [] := by decide
theorem test_decode_reserved7 : decode [0x07#8] = .ok .reserved7 [] := by decide
/-- Frame E5: kind and payload equal to the sync value. -/
theorem test_decode_frame :
    decode [0xAA#8, 0xAA#8, 0x01#8, 0x00#8, 0xAA#8, 0x01#8] = .ok (.frame 0xAA#8 [0xAA#8] 0x01#8) [] := by decide
theorem test_decode_frameTick :
    decode s1 = .ok (.frameTick [0x2A#8, 0x00#8, 0x00#8, 0x00#8] 0x2F#8) [] := by decide
/-- Frame E7. -/
theorem test_decode_frameTransport :
    decode [0xAA#8, 0x02#8, 0x02#8, 0x00#8, 0xAA#8, 0xAA#8, 0x00#8] =
      .ok (.frameTransport [0xAA#8, 0xAA#8] 0x00#8) [] := by decide
theorem test_decode_frameVoices :
    decode [0xAA#8, 0x03#8, 0x00#8, 0x00#8, 0x03#8] = .ok (.frameVoices [] 0x03#8) [] := by decide
theorem test_decode_frameMidiIn :
    decode [0xAA#8, 0x04#8, 0x00#8, 0x00#8, 0x04#8] = .ok (.frameMidiIn [] 0x04#8) [] := by decide
theorem test_decode_frameCcState :
    decode [0xAA#8, 0x05#8, 0x00#8, 0x00#8, 0x05#8] = .ok (.frameCcState [] 0x05#8) [] := by decide
/-- Frame E9. -/
theorem test_decode_frameDebug :
    decode [0xAA#8, 0xFF#8, 0x02#8, 0x00#8, 0x68#8, 0x69#8, 0xFC#8] =
      .ok (.frameDebug [0x68#8, 0x69#8] 0xFC#8) [] := by decide
/-- Frame E3. -/
theorem test_decode_framePlay :
    decode [0xAA#8, 0x80#8, 0x00#8, 0x00#8, 0x80#8] = .ok (.framePlay [] 0x80#8) [] := by decide
/-- Frame E2. -/
theorem test_decode_frameStop :
    decode [0xAA#8, 0x81#8, 0x00#8, 0x00#8, 0x81#8] = .ok (.frameStop [] 0x81#8) [] := by decide
/-- Frame E8. -/
theorem test_decode_frameRecord :
    decode [0xAA#8, 0x82#8, 0x01#8, 0x00#8, 0x01#8, 0x82#8] = .ok (.frameRecord [0x01#8] 0x82#8) [] := by decide
/-- Frame E6. -/
theorem test_decode_frameTempo :
    decode [0xAA#8, 0x83#8, 0x02#8, 0x00#8, 0x78#8, 0x00#8, 0xF9#8] =
      .ok (.frameTempo [0x78#8, 0x00#8] 0xF9#8) [] := by decide
/-- Frame E4. -/
theorem test_decode_frameReqState :
    decode [0xAA#8, 0x90#8, 0x00#8, 0x00#8, 0x90#8] = .ok (.frameReqState [] 0x90#8) [] := by decide

theorem test_decode_not_a_record : decode [0x08#8, 0x00#8] = .bad (.notARecord 0x08#8) := by decide
theorem test_decode_truncated_frame : decode [0xAA#8, 0x01#8, 0x01#8, 0x00#8, 0x55#8] = .bad .truncated := by decide

/-! The opcode table's words: the CMD rows' `match` with their operand bits zero, the FRAME rows' 32-bit `match` (R76). -/

theorem test_table_commands :
    decodeTableWord 8 0 = some .reset ∧ decodeTableWord 8 1 = some .csClr ∧
      decodeTableWord 8 2 = some (.csFold 0x00#8) ∧ decodeTableWord 8 3 = some (.enc 0x00#8 []) ∧
      decodeTableWord 8 4 = some (.decPush 0x00#8) ∧ decodeTableWord 8 5 = some .decTry ∧
      decodeTableWord 8 6 = some .reserved6 ∧ decodeTableWord 8 7 = some .reserved7 := by decide

theorem test_table_frames :
    decodeTableWord 32 0xAA000000 = some (.frame 0x00#8 [] 0x00#8) ∧
      decodeTableWord 32 0xAA010000 = some (.frameTick [] 0x00#8) ∧
      decodeTableWord 32 0xAA020000 = some (.frameTransport [] 0x00#8) ∧
      decodeTableWord 32 0xAA030000 = some (.frameVoices [] 0x00#8) ∧
      decodeTableWord 32 0xAA040000 = some (.frameMidiIn [] 0x00#8) ∧
      decodeTableWord 32 0xAA050000 = some (.frameCcState [] 0x00#8) ∧
      decodeTableWord 32 0xAAFF0000 = some (.frameDebug [] 0x00#8) ∧
      decodeTableWord 32 0xAA800000 = some (.framePlay [] 0x00#8) ∧
      decodeTableWord 32 0xAA810000 = some (.frameStop [] 0x00#8) ∧
      decodeTableWord 32 0xAA820000 = some (.frameRecord [] 0x00#8) ∧
      decodeTableWord 32 0xAA830000 = some (.frameTempo [] 0x00#8) ∧
      decodeTableWord 32 0xAA900000 = some (.frameReqState [] 0x00#8) := by decide

/-- The low length byte is in bits 15 to 8 of the word (R76). -/
theorem test_table_frame_length :
    decodeTableWord 32 0xAA010200 = some (.frameTick [0x00#8, 0x00#8] 0x00#8) := by decide

/-! The step. -/

theorem test_step_first_after_reset :
    nextHas (step (State.reset.withFetchWord 8 2)) (fun t => t.csAcc == 0x00#8 && t.trace == []) = true := by decide

/-- The table's word of FRAME.STOP with a zero checksum byte: expected `81`, found `00` (as vector D18). -/
theorem test_step_frame_word :
    nextHas (step (State.reset.withFetchWord 32 0xAA810000))
      (fun t => t.dWhy == 5#3 && t.buf == [0x81#8, 0x00#8, 0x00#8, 0x00#8]) = true := by decide

theorem test_step_takes_one_record :
    nextHas (step (withTrace [0x02#8, 0x5A#8, 0x07#8])) (fun t => t.csAcc == 0x5A#8 && t.trace == [0x07#8]) = true := by
  decide

theorem test_step_not_a_record : refusedWith (step (withTrace [0x08#8])) (.notARecord 0x08#8) = true := by decide
theorem test_step_truncated : refusedWith (step (withTrace [0x04#8])) .truncatedRecord = true := by decide

/-! Single operations, the vectors of 95_test_vectors.md. -/

/-- K11. -/
theorem test_csClr :
    nextHas (exec .csClr { State.reset with csAcc := 0x5A#8 }) (fun t => t.csAcc == 0x00#8 && t.xCode == 0#2) = true := by
  decide

/-- K14; the stale code is overwritten. -/
theorem test_csFold :
    nextHas (exec (.csFold 0xFF#8) { State.reset with csAcc := 0x5A#8, xCode := 3#2 })
      (fun t => t.csAcc == 0xA5#8 && t.xCode == 0#2) = true := by decide

/-- K6, K7 and K10. -/
theorem test_xorfold :
    xorfold [0x12#8, 0x34#8, 0x56#8] = 0x70#8 ∧
      xorfold [0x01#8, 0x04#8, 0x00#8, 0x2A#8, 0x00#8, 0x00#8, 0x00#8] = 0x2F#8 ∧
      xorfold [0x01#8, 0x04#8, 0x00#8, 0x2A#8, 0x00#8, 0x00#8, 0x00#8, 0x2F#8] = 0x00#8 := by decide

/-- E1 behind E2, and K15: TX grows by the whole frame, CS_ACC is untouched. -/
theorem test_enc :
    nextHas (exec (.enc 0x01#8 [0x2A#8, 0x00#8, 0x00#8, 0x00#8])
        { State.reset with csAcc := 0x5A#8, tx := [0xAA#8, 0x81#8, 0x00#8, 0x00#8, 0x81#8] })
      (fun t => t.tx == [0xAA#8, 0x81#8, 0x00#8, 0x00#8, 0x81#8] ++ s1 && t.csAcc == 0x5A#8) = true := by decide

/-- E16: rejected, nothing emitted. -/
theorem test_enc_too_long :
    nextHas (exec (.enc 0x01#8 (List.replicate 65536 0x00#8)) State.reset)
      (fun t => t.tx == [] && t.xCode == 1#2) = true := by
  have h : maxPayload < (List.replicate 65536 (0x00#8 : Byte)).length := by
    simp only [List.length_replicate]; decide
  rw [exec, execEnc, if_pos h]; decide

/-- E12 and E15: `0x0100` is `00 01`, `0x1234` is `34 12`. -/
theorem test_enc_length_bytes :
    lenLo 256 = 0x00#8 ∧ lenHi 256 = 0x01#8 ∧ lenLo 0x1234 = 0x34#8 ∧ lenHi 0x1234 = 0x12#8 := by decide

/-- B2. -/
theorem test_decPush :
    nextHas (exec (.decPush 0x04#8) (withBuf [0xAA#8, 0x01#8]))
      (fun t => t.buf == [0xAA#8, 0x01#8, 0x04#8] && t.xCode == 0#2) = true := by decide

/-- B3. -/
theorem test_decPush_full :
    exec (.decPush 0x77#8) (withBuf (List.replicate 65540 0x00#8)) =
      .next { withBuf (List.replicate 65540 0x00#8) with xCode := 2#2 } := by
  have h : bufFull (withBuf (List.replicate 65540 0x00#8)) = true := by
    simp only [bufFull, withBuf, blen, State.reset, Config.default, List.length_replicate]; decide
  rw [exec, execDecPush, pushByte, if_pos h]; rfl

/-- D8, and K16: CS_ACC is untouched. -/
theorem test_decTry_frame :
    nextHas (exec .decTry { withBuf ([0x00#8, 0xFF#8, 0x13#8] ++ s1 ++ [0xAA#8, 0x81#8]) with csAcc := 0x5A#8 })
      (fun t => t.fValid && t.fKind == 0x01#8 && t.fLen == 4#16 &&
        t.fPayload == [0x2A#8, 0x00#8, 0x00#8, 0x00#8] && t.buf == [0xAA#8, 0x81#8] && t.dWhy == 4#3 &&
        t.csAcc == 0x5A#8) = true := by decide

/-- D23, attempt 1: one byte is dropped, not the declared length. -/
theorem test_decTry_resync :
    nextHas (exec .decTry (withBuf
        [0xAA#8, 0x01#8, 0x05#8, 0x00#8, 0x55#8, 0x55#8, 0xAA#8, 0x81#8, 0x00#8, 0x00#8, 0x81#8]))
      (fun t => !t.fValid && t.dWhy == 5#3 &&
        t.buf == [0x01#8, 0x05#8, 0x00#8, 0x55#8, 0x55#8, 0xAA#8, 0x81#8, 0x00#8, 0x00#8, 0x81#8]) = true := by decide

/-- The exits of D3, D4, D5, D6, D15, D17, D25 and D29. -/
theorem test_tryDecode_exits :
    ((tryDecode [0x01#8, 0x02#8, 0x03#8, 0x04#8]).exit, (tryDecode [0x01#8, 0x02#8, 0x03#8, 0x04#8]).dropped) =
        (.short, 0) ∧
      tryDecode [0x01#8, 0x02#8, 0x03#8, 0x04#8, 0x05#8] = ⟨.noSync, 5, none⟩ ∧
      tryDecode [0x01#8, 0x02#8, 0x03#8, 0xAA#8, 0x81#8] = ⟨.shortSync, 3, none⟩ ∧
      tryDecode [0xAA#8, 0x01#8, 0x04#8, 0x00#8, 0x2A#8] = ⟨.incomplete, 0, none⟩ ∧
      tryDecode [0xAA#8, 0x01#8, 0xFF#8, 0xFF#8, 0x00#8] = ⟨.incomplete, 0, none⟩ ∧
      tryDecode [0x11#8, 0xAA#8, 0x22#8, 0x33#8] = ⟨.short, 0, none⟩ ∧
      tryDecode [0x10#8, 0x20#8, 0xAA#8, 0x01#8, 0x04#8, 0x00#8, 0x2A#8, 0x00#8] = ⟨.incomplete, 2, none⟩ ∧
      tryDecode [0xAA#8, 0x01#8, 0x04#8, 0x00#8, 0x2A#8, 0x00#8, 0x00#8, 0x00#8, 0x85#8] = ⟨.resync, 1, none⟩ := by
  decide

/-- D11: the first `AA` is the sync; D12: so a stray one before a good frame waits. -/
theorem test_tryDecode_first_sync :
    tryDecode [0xAA#8, 0xAA#8, 0x00#8, 0x00#8, 0xAA#8] = ⟨.frame, 5, some ⟨0xAA#8, 0#16, []⟩⟩ ∧
      tryDecode [0xAA#8, 0xAA#8, 0x81#8, 0x00#8, 0x00#8, 0x81#8] = ⟨.incomplete, 0, none⟩ := by decide

/-- R28 on frame S1: FILL only tests that enough is there, CHK folds. -/
theorem test_phase_folds_in_chk :
    ((walkRun s1 5 walkStart).phase, (walkRun s1 5 walkStart).acc) = (.chk, 0x00#8) ∧
      ((walkRun s1 6 walkStart).phase, (walkRun s1 6 walkStart).acc) = (.idle, 0x2F#8) := by decide

/-- D14, attempt 2: the false frame. -/
theorem test_tryDecode_false_frame :
    tryDecode [0x01#8, 0x06#8, 0x00#8, 0xAA#8, 0x07#8, 0x04#8, 0x00#8, 0x00#8, 0x00#8, 0xA8#8, 0xAA#8, 0x01#8, 0x00#8,
        0x00#8, 0x01#8] =
      ⟨.frame, 12, some ⟨0x07#8, 4#16, [0x00#8, 0x00#8, 0xA8#8, 0xAA#8]⟩⟩ := by decide

/-- P4 step 6: the history on TX stays. -/
theorem test_reset :
    nextHas (exec .reset { withBuf [0xAA#8, 0x01#8] with
        csAcc := 0x2F#8, fValid := true, dWhy := 4#3, xCode := 2#2, tx := [0xAA#8] })
      (fun t => t.buf == [] && t.csAcc == 0x00#8 && !t.fValid && t.dWhy == 0#3 && t.xCode == 0#2 &&
        t.tx == [0xAA#8]) = true := by decide

/-- P4 step 4, and OPSEL 6. -/
theorem test_reserved :
    nextHas (exec .reserved7 { withBuf [0xAA#8] with csAcc := 0x5A#8 })
        (fun t => t.xCode == 3#2 && t.csAcc == 0x5A#8 && t.buf == [0xAA#8]) = true ∧
      nextHas (exec .reserved6 { withBuf [0xAA#8] with csAcc := 0x5A#8 })
        (fun t => t.xCode == 3#2 && t.csAcc == 0x5A#8 && t.buf == [0xAA#8]) = true := by decide

/-- A read of the frame registers without a frame is the host's fault (R34). -/
theorem test_readFrame_invalid : readFrame State.reset = .error .frameReadWhileInvalid := by rfl

/-- Every frame row with an empty payload and its own kind as checksum, as D10: the frame is there, the buffer empty. -/
theorem test_frame_rows :
    ∀ row ∈ [(Instr.frame 0x00#8 [] 0x00#8, 0x00#8), (.frameTick [] 0x01#8, 0x01#8), (.frameTransport [] 0x02#8, 0x02#8),
        (.frameVoices [] 0x03#8, 0x03#8), (.frameMidiIn [] 0x04#8, 0x04#8), (.frameCcState [] 0x05#8, 0x05#8),
        (.frameDebug [] 0xFF#8, 0xFF#8), (.framePlay [] 0x80#8, 0x80#8), (.frameStop [] 0x81#8, 0x81#8),
        (.frameRecord [] 0x82#8, 0x82#8), (.frameTempo [] 0x83#8, 0x83#8), (.frameReqState [] 0x90#8, 0x90#8)],
      nextHas (exec row.1 State.reset)
        (fun t => t.fValid && t.fKind == row.2 && t.fPayload == [] && t.buf == [] && t.dWhy == 4#3) = true := by decide

/-- P2 step 1 as a poll, and D26 as a drain that returns two frames. -/
theorem test_drain :
    (poll [0x00#8, 0x13#8, 0xAA#8, 0x01#8, 0x04#8] State.reset).state.buf = [0xAA#8, 0x01#8, 0x04#8] ∧
      (decDrain (withBuf (s1 ++ [0xAA#8, 0x81#8, 0x00#8, 0x00#8, 0x81#8]))).frames =
        [⟨0x01#8, 4#16, [0x2A#8, 0x00#8, 0x00#8, 0x00#8]⟩, ⟨0x81#8, 0#16, []⟩] := by decide

/-! Witnesses: a state and operands that meet the hypotheses of each statement that has any. -/

/-- DecodeEncodeRoundTrip: with the longest frame of `test_wf_frame_payload_at_limit`. -/
theorem test_witness_decodeEncode :
    ∀ i ∈ [Instr.reset, .enc 0x01#8 [0x2A#8], .frame 0xAA#8 [0xAA#8] 0x01#8, .frameTick [] 0x00#8],
      i.wf = true := by decide

/-- EncodeDecodeRoundTrip. -/
theorem test_witness_encodeDecode : decode ([0x04#8, 0xAA#8] ++ [0x05#8]) = .ok (.decPush 0xAA#8) [0x05#8] := by decide

/-- NonRecordsAreRejected, clauses 2 and 3. -/
theorem test_witness_nonRecords :
    (8 ≤ (0x08#8).toNat ∧ 0x08#8 ≠ 0xAA#8) ∧ (8 ≤ (0xFF#8).toNat ∧ 0xFF#8 ≠ 0xAA#8) ∧
      (Instr.wf (.csFold 0x00#8) = true ∧ 0 < 1 ∧ 1 < (encode (.csFold 0x00#8)).length) := by decide

/-- StepRunsTheDecodedOperation. -/
theorem test_witness_stepRuns :
    decode (withTrace [0x05#8, 0x00#8]).trace = .ok .decTry [0x00#8] ∧
      Instr.presentable (withTrace [0x05#8, 0x00#8]).cfg .decTry = true := by decide

/-- StepWithoutAnOperation, the first three clauses. -/
theorem test_witness_stepWithout :
    (withTrace []).trace = [] ∧ decode (withTrace [0x08#8]).trace = .bad (.notARecord 0x08#8) ∧
      decode (withTrace [0x02#8]).trace = .bad .truncated := by decide

/-- StepWithoutAnOperation, the fourth clause: `2^17` bytes where `PLEN_W = 17`. -/
theorem test_witness_stepWithout_count :
    ∃ s : State, decode s.trace = .ok (.enc 0x01#8 (List.replicate 131072 0x00#8)) [] ∧
      2 ^ s.cfg.plenW ≤ (List.replicate 131072 0x00#8 : List Byte).length := by
  refine ⟨{ State.reset with cfg := narrow, trace := encode (.enc 0x01#8 (List.replicate 131072 0x00#8)) ++ [] },
    Laws.RoundTrip.enc _ _ _ ?_, ?_⟩
  · simp only [Instr.wf, List.length_replicate]; decide
  · simp only [List.length_replicate]; decide

/-- InterleavedFoldsLeaveTheChecksum. -/
theorem test_witness_interleaved :
    ∀ i ∈ [Instr.csFold 0x12#8, .decTry, .enc 0x81#8 [], .csFold 0x34#8, .frameTick [] 0x00#8],
      i ≠ .csClr ∧ i ≠ .reset := by decide

/-- The statements about ENC, and EncodedFrameDecodesBack: the longest payload and the shortest rejected one. -/
theorem test_witness_enc :
    (List.replicate 65535 0xFF#8 : List Byte).length ≤ 65535 ∧
      65535 < (List.replicate 65536 0x00#8 : List Byte).length := by
  simp only [List.length_replicate]; decide

/-- PushAppendsOrIsRefused: one byte below the capacity, no capacity, and a full buffer. -/
theorem test_witness_push :
    (withBuf (List.replicate 65539 0x00#8)).cfg.bufCap ≠ .finite (withBuf (List.replicate 65539 0x00#8)).buf.length ∧
      ({ State.reset with cfg := narrow } : State).cfg.bufCap ≠ .finite 0 ∧
      (withBuf (List.replicate 65540 0x00#8)).cfg.bufCap = .finite (withBuf (List.replicate 65540 0x00#8)).buf.length := by
  simp only [withBuf, List.length_replicate]; decide

/-- AppendStopsAtARefusedPush: room for exactly the bytes, and room for one of two. -/
theorem test_witness_append :
    Config.default.bufCap.hasRoom (withBuf (List.replicate 65538 0x00#8)).buf.length 2 = true ∧
      Config.default.bufCap = .finite 65540 ∧ (withBuf (List.replicate 65539 0x00#8)).buf.length ≤ 65540 ∧
      65540 < (withBuf (List.replicate 65539 0x00#8)).buf.length + [0x01#8, 0x02#8].length := by
  simp only [withBuf, List.length_replicate]; decide

/-- TryKeepsAShortBuffer (D2) and TryEmptiesABufferWithoutSync (D4), at the boundary of both. -/
theorem test_witness_short_and_noSync :
    (withBuf [0xAA#8, 0x01#8, 0x00#8, 0x00#8]).buf.length < 5 ∧
      5 ≤ (withBuf [0x01#8, 0x02#8, 0x03#8, 0x04#8, 0x05#8]).buf.length ∧
      0xAA#8 ∉ (withBuf [0x01#8, 0x02#8, 0x03#8, 0x04#8, 0x05#8]).buf := by decide

/-- TryKeepsAShortCandidate: four bytes from the sync, one before it. -/
theorem test_witness_shortCandidate :
    (withBuf [0x01#8, 0xAA#8, 0x81#8, 0x00#8, 0x00#8]).buf = [0x01#8] ++ 0xAA#8 :: [0x81#8, 0x00#8, 0x00#8] ∧
      0xAA#8 ∉ [0x01#8] ∧ 5 ≤ (withBuf [0x01#8, 0xAA#8, 0x81#8, 0x00#8, 0x00#8]).buf.length ∧
      (0xAA#8 :: [0x81#8, 0x00#8, 0x00#8]).length < 5 := by decide

/-- TryWaitsForAnIncompleteCandidate: D15, the longest total, and D6's candidate one byte short. -/
theorem test_witness_incomplete :
    ((withBuf [0xAA#8, 0x01#8, 0xFF#8, 0xFF#8, 0x00#8]).buf =
        [] ++ 0xAA#8 :: 0x01#8 :: 0xFF#8 :: 0xFF#8 :: [0x00#8] ∧
      4 + [0x00#8].length < 4 + ((0xFF#8).toNat + 256 * (0xFF#8).toNat) + 1) ∧
      (1 ≤ [0x2A#8, 0x00#8, 0x00#8, 0x00#8].length ∧
        4 + [0x2A#8, 0x00#8, 0x00#8, 0x00#8].length < 4 + ((0x04#8).toNat + 256 * (0x00#8).toNat) + 1) := by decide

/-- TryReturnsAValidFrame (D8) and TryDropsOneByteOnMismatch (D9 behind garbage). -/
theorem test_witness_candidate :
    (withBuf ([0x00#8, 0xFF#8, 0x13#8] ++ s1 ++ [0xAA#8, 0x81#8])).buf =
        [0x00#8, 0xFF#8, 0x13#8] ++ 0xAA#8 :: 0x01#8 :: 0x04#8 :: 0x00#8 ::
          ([0x2A#8, 0x00#8, 0x00#8, 0x00#8] ++ 0x2F#8 :: [0xAA#8, 0x81#8]) ∧
      0xAA#8 ∉ [0x00#8, 0xFF#8, 0x13#8] ∧
      [0x2A#8, 0x00#8, 0x00#8, 0x00#8].length = (0x04#8).toNat + 256 * (0x00#8).toNat ∧
      xorfold (0x01#8 :: 0x04#8 :: 0x00#8 :: [0x2A#8, 0x00#8, 0x00#8, 0x00#8]) = 0x2F#8 ∧
      xorfold (0x01#8 :: 0x04#8 :: 0x00#8 :: [0x2A#8, 0x00#8, 0x00#8, 0x00#8]) ≠ 0x2E#8 := by decide

/-- TryFollowsTheExitTable, its clause about the frame, and ZeroResidueDecidesValidity (S1). -/
theorem test_witness_table :
    (withBuf s1).buf.findIdx? (fun b => b == 0xAA#8) = some 0 ∧ nextHas (exec .decTry (withBuf s1)) (·.fValid) = true ∧
      (withBuf s1).buf =
        0xAA#8 :: 0x01#8 :: 0x04#8 :: 0x00#8 :: ([0x2A#8, 0x00#8, 0x00#8, 0x00#8] ++ 0x2F#8 :: []) := by decide

/-- The clauses by exit of TryOnlyDropsFromTheHead, WaitingAttemptsRepeat and HeadOfTheBufferAfterEachExit (D1, D4, D5, D6, D10, D18). -/
theorem test_witness_exits :
    nextHas (exec .decTry (withBuf [])) (·.dWhy == 0#3) = true ∧
      nextHas (exec .decTry (withBuf [0x01#8, 0x02#8, 0x03#8, 0x04#8, 0x05#8])) (·.dWhy == 1#3) = true ∧
      nextHas (exec .decTry (withBuf [0x01#8, 0x02#8, 0x03#8, 0xAA#8, 0x81#8])) (·.dWhy == 2#3) = true ∧
      nextHas (exec .decTry (withBuf [0xAA#8, 0x01#8, 0x04#8, 0x00#8, 0x2A#8])) (·.dWhy == 3#3) = true ∧
      nextHas (exec .decTry (withBuf [0xAA#8, 0x81#8, 0x00#8, 0x00#8, 0x81#8])) (·.dWhy == 4#3) = true ∧
      nextHas (exec .decTry (withBuf [0xAA#8, 0x81#8, 0x00#8, 0x00#8, 0x80#8])) (·.dWhy == 5#3) = true := by decide

/-- TryDependsOnTheBufferAlone: two states that differ in every other register of the decoder. -/
theorem test_witness_bufferAlone :
    (withBuf s1).buf = ({ withBuf s1 with csAcc := 0x5A#8, fValid := true, dWhy := 4#3, xCode := 2#2 } : State).buf := by
  decide

/-- GarbageWithoutSyncIsHarmless (D8) and BackToBackFramesComeInOrder (D26). -/
theorem test_witness_streams :
    (0xAA#8 ∉ [0x00#8, 0xFF#8, 0x13#8] ∧
      (withBuf ([0x00#8, 0xFF#8, 0x13#8] ++ s1 ++ [0xAA#8, 0x81#8])).buf =
        [0x00#8, 0xFF#8, 0x13#8] ++ encFrame 0x01#8 [0x2A#8, 0x00#8, 0x00#8, 0x00#8] ++ [0xAA#8, 0x81#8]) ∧
      (withBuf (s1 ++ [0xAA#8, 0x81#8, 0x00#8, 0x00#8, 0x81#8])).buf =
        encFrame 0x01#8 [0x2A#8, 0x00#8, 0x00#8, 0x00#8] ++ encFrame 0x81#8 [] := by decide

/-- ResyncAfterACorruptedFrame, its first clause and the condition on the first frame (D13). -/
theorem test_witness_resync :
    0x54#8 ≠ xorfold (coveredBytes 0x01#8 [0x55#8]) ∧
      (withBuf [0xAA#8, 0x01#8, 0x01#8, 0x00#8, 0x55#8, 0x54#8, 0xAA#8, 0x81#8, 0x00#8, 0x00#8, 0x81#8]).buf =
        wireFrame 0x01#8 [0x55#8] 0x54#8 ++ encFrame 0x81#8 [] ∧
      0xAA#8 ∉ (wireFrame 0x01#8 [0x55#8] 0x54#8).drop 1 := by decide

/-- FragmentedFrameIsReturnedOnce: an empty payload, attempts after some of the pushes. -/
theorem test_witness_fragments :
    ([] : List Byte).length ≤ 65535 ∧ (withBuf []).buf = [] ∧
      [0, 2, 0, 1, 3].length = ([] : List Byte).length + 5 ∧ 4 < ([] : List Byte).length + 5 := by decide

/-- AFullBufferMakesRoom. -/
theorem test_witness_full :
    (withBuf (List.replicate 65540 0xAA#8)).cfg.bufCap = .finite (withBuf (List.replicate 65540 0xAA#8)).buf.length := by
  simp only [withBuf, List.length_replicate]; decide

/-- ArrivingFrameIsReturned, ArrivingBadFrameIsRescanned and ArrivingFrameIsPushesAndOneTry: each row with its right checksum
byte (`k`) and with a wrong one, behind an empty buffer. -/
theorem test_witness_arriving :
    (∀ k ∈ [0x00#8, 0x01#8, 0x02#8, 0x03#8, 0x04#8, 0x05#8, 0xFF#8, 0x80#8, 0x81#8, 0x82#8, 0x83#8, 0x90#8],
      (∃ row ∈ frameRows 0x00#8 [] k, k = xorfold (coveredBytes row.2 []) ∧ row.2 = k) ∧
      ∃ row ∈ frameRows 0x00#8 [] 0x77#8, row.2 = k ∧ 0x77#8 ≠ xorfold (coveredBytes row.2 [])) ∧
      0xAA#8 ∉ State.reset.buf ∧ State.reset.cfg.bufCap.hasRoom State.reset.buf.length (0 + 5) = true := by decide

/-- ArrivingFrameIsCutByAFullBuffer: room for four bytes of five, and room for none. -/
theorem test_witness_arriving_cut :
    ((withBuf (List.replicate 65536 0x00#8)).buf.length ≤ 65540 ∧
      65540 < (withBuf (List.replicate 65536 0x00#8)).buf.length + (([] : List Byte).length + 5)) ∧
      ((withBuf (List.replicate 65540 0x00#8)).buf.length ≤ 65540 ∧
      65540 < (withBuf (List.replicate 65540 0x00#8)).buf.length + (([] : List Byte).length + 5)) ∧
      Config.default.bufCap = .finite 65540 := by
  simp only [withBuf, List.length_replicate]; decide

/-- EveryOutcomeHasItsCode, BufferMutations, DecoderResultsLastUntilTheNextTry and OnlyCsAndResetWriteTheAccumulator. -/
theorem test_witness_operations :
    (∀ i ∈ [Instr.reset, .csClr, .csFold 0x00#8, .enc 0x01#8 [], .decPush 0x00#8, .decTry, .reserved6, .reserved7],
      isOperation i = true) ∧
      (∀ i ∈ [Instr.csClr, .csFold 0x00#8, .enc 0x01#8 [], .decPush 0x00#8, .reserved6, .reserved7],
        i ≠ .decTry ∧ i ≠ .reset) ∧
      ∀ i ∈ [Instr.enc 0x01#8 [], .decPush 0x00#8, .decTry, .reserved6, .reserved7, .frameTick [] 0x00#8],
        i ≠ .csClr ∧ i ≠ .reset := by decide

/-- ErrorsArePrecise: a refused operation; `test_enc_too_long` and `test_decPush_full` show the two others. -/
theorem test_witness_errors :
    isOperation .reserved6 = true ∧ nextHas (exec .reserved6 State.reset) (fun t => t.xCode != 0#2) = true := by decide

/-- EncCommutesWithTheOtherUnits: the operations named. -/
theorem test_witness_commutes :
    ∀ i ∈ [Instr.decPush 0x77#8, .decTry, .csFold 0x77#8, .csClr],
      i ∈ [Instr.decPush 0x77#8, .decTry, .csFold 0x77#8, .csClr] := by decide

/-- DerivedOutputsFollowTheBuffer: BUF_CAP finite with BUF full, empty and in between, and INF. -/
theorem test_witness_outputs :
    (Config.default.bufCap = .finite 65540 ∧ (withBuf (List.replicate 65540 0x00#8)).buf.length ≤ 65540) ∧
      bufEmpty (withBuf []) = true ∧ bufFull (withBuf []) = false ∧ bufEmpty (withBuf [0xAA#8]) = false ∧
      narrow.bufCap = .inf := by
  simp only [withBuf, List.length_replicate]; decide

/-- FlagsAreNoInputs: its two ways, an attempt and a refused operation. -/
theorem test_witness_flags :
    isOperation .reserved6 = true ∧ Instr.reserved6 ≠ .decTry ∧ Instr.reserved6 ≠ .reset ∧
      nextHas (exec .decTry { withBuf s1 with fValid := true, dWhy := 5#3 }) (·.dWhy == 4#3) = true ∧
      nextHas (exec .reserved6 { withBuf s1 with fValid := true, dWhy := 5#3 }) (·.dWhy == 5#3) = true := by decide

/-- StepKeepsTheInvariants: a state with a frame and a byte to push. -/
theorem test_witness_invariants :
    ∃ s t : State, Inv s ∧ s.fValid = true ∧ step s = .next t := by
  refine ⟨{ withBuf [0xAA#8] with
      fValid := true, dWhy := 4#3, fKind := 0x81#8, fLen := 1#16, fPayload := [0x00#8], trace := [0x04#8, 0x01#8] },
    _, ⟨by decide, fun _ => by decide, by decide, by decide⟩, rfl, rfl⟩

/-- BufferReadsAfterAppendAndDrop: the offsets of the last byte. -/
theorem test_witness_reads :
    2 < [0x01#8, 0x02#8, 0x03#8].length ∧ 1 + 1 + 1 ≤ [0x01#8, 0x02#8, 0x03#8].length ∧
      1 + 2 ≤ [0x01#8, 0x02#8, 0x03#8].length := by decide

end Sys2Proof.Tests
end

section
/-! The fetch and the step where the host's records begin with an operation (R7, R8). -/

namespace Sys2Proof.Proofs

open Sys2Proof Sys2Proof.Machine

/-- R66: an operation the host can present is fetched as it decodes. -/
theorem fetch_eq_op_of_decode {s : State} {i : Instr} {rest : List Byte}
    (hdecode : decode s.trace = .ok i rest) (hpresentable : i.presentable s.cfg = true) :
    fetch s = .op i rest := by
  simp [fetch, hdecode, hpresentable]

/-- R7: the step runs what was fetched, with its record consumed. -/
theorem step_eq_exec_of_fetch {s : State} {i : Instr} {rest : List Byte} (hfetch : fetch s = .op i rest) :
    step s = exec i { s with trace := rest } := by
  simp [step, hfetch]

/-- Settles O5: the fetch answers the decoded operation, and the step runs what is fetched. -/
theorem stepRunsTheDecodedOperation : Obligations.StepRunsTheDecodedOperation :=
  fun _ _ _ hdecode hpresentable => step_eq_exec_of_fetch (fetch_eq_op_of_decode hdecode hpresentable)

end Sys2Proof.Proofs
end

section
/-! What every instruction does, said once: an equation per operation of the command port, and the one effect all frame rows
share. The proofs about `exec` split by `exec_cases`. -/

namespace Sys2Proof.Proofs

open Sys2Proof Sys2Proof.Machine

@[simp] theorem exec_reset (s : State) : exec .reset s = .next (resetBlock s) := rfl
@[simp] theorem exec_csClr (s : State) : exec .csClr s = .next (complete { s with csAcc := 0x00#8 }) := rfl
@[simp] theorem exec_csFold (b : Byte) (s : State) :
    exec (.csFold b) s = .next (complete { s with csAcc := s.csAcc ^^^ b }) := rfl
@[simp] theorem exec_decPush (b : Byte) (s : State) : exec (.decPush b) s = .next (pushByte b s) := rfl
@[simp] theorem exec_decTry (s : State) : exec .decTry s = .next (tryOnce s) := rfl
@[simp] theorem exec_reserved6 (s : State) : exec .reserved6 s = .next (raise xBadOp s) := rfl
@[simp] theorem exec_reserved7 (s : State) : exec .reserved7 s = .next (raise xBadOp s) := rfl

/-- R87, R88: whether the payload fits or not, ENC writes TX and X_CODE alone. -/
@[simp] theorem exec_enc (kind : Byte) (payload : List Byte) (s : State) :
    exec (.enc kind payload) s = .next { s with
      tx := s.tx ++ emittedBy (.enc kind payload)
      xCode := if payload.length ≤ 65535 then xOk else xEncTooLong } := by
  change execEnc kind payload s = _
  by_cases hfits : payload.length ≤ 65535
  · simp [execEnc, emittedBy, hfits, complete, emit]
  · simp [execEnc, emittedBy, hfits, Nat.lt_of_not_le hfits, raise]

/-- Every frame row is the arrival of some wire frame (log entry 1). -/
theorem exec_eq_receiveFrame {i : Instr} (hrow : isOperation i = false) :
    ∃ kind payload c, ∀ s, exec i s = .next (receiveFrame (wireFrame kind payload c) s) := by
  cases i with
  | reset | csClr | csFold | enc | decPush | decTry | reserved6 | reserved7 => cases hrow
  | frame | frameTick | frameTransport | frameVoices | frameMidiIn | frameCcState | frameDebug
  | framePlay | frameStop | frameRecord | frameTempo | frameReqState => exact ⟨_, _, _, fun _ => rfl⟩

/-- A statement about every instruction needs the eight operations of the command port and one case for all frame rows. -/
theorem exec_cases {motive : Instr → Prop} (reset : motive .reset) (csClr : motive .csClr)
    (csFold : ∀ b, motive (.csFold b)) (enc : ∀ kind payload, motive (.enc kind payload))
    (decPush : ∀ b, motive (.decPush b)) (decTry : motive .decTry)
    (reserved6 : motive .reserved6) (reserved7 : motive .reserved7)
    (frameRow : ∀ i kind payload c, isOperation i = false →
      (∀ s, exec i s = .next (receiveFrame (wireFrame kind payload c) s)) → motive i)
    (i : Instr) : motive i := by
  cases hop : isOperation i with
  | false =>
    obtain ⟨kind, payload, c, hexec⟩ := exec_eq_receiveFrame hop
    exact frameRow i kind payload c hop hexec
  | true =>
    cases i with
    | reset => exact reset
    | csClr => exact csClr
    | csFold b => exact csFold b
    | enc kind payload => exact enc kind payload
    | decPush b => exact decPush b
    | decTry => exact decTry
    | reserved6 => exact reserved6
    | reserved7 => exact reserved7
    | _ => cases hop

/-- R31: only ENC puts anything on TX. -/
theorem emittedBy_of_frameRow {i : Instr} (hrow : isOperation i = false) : emittedBy i = [] := by
  cases i with
  | enc => cases hrow
  | _ => rfl

end Sys2Proof.Proofs
end

section
/-! What an arriving frame leaves alone, and which registers the decoder's operations never read: CS_ACC, TX, F_VALID, D_WHY and
X_CODE (R14, R22, R33). Each lemma runs the operation on a state in which those were changed. -/

namespace Sys2Proof.Proofs

open Sys2Proof Sys2Proof.Machine

@[simp] theorem receiveFrame_cfg (bs : List Byte) (s : State) : (receiveFrame bs s).cfg = s.cfg := by
  unfold receiveFrame; split <;> simp
@[simp] theorem receiveFrame_csAcc (bs : List Byte) (s : State) : (receiveFrame bs s).csAcc = s.csAcc := by
  unfold receiveFrame; split <;> simp
@[simp] theorem receiveFrame_tx (bs : List Byte) (s : State) : (receiveFrame bs s).tx = s.tx := by
  unfold receiveFrame; split <;> simp

variable (s : State) (a : Byte) (old : List Byte) (v : Bool) (w : BitVec 3) (x : BitVec 2)

/-- A push overwrites X_CODE. -/
theorem pushByte_of_xCode (b : Byte) : pushByte b { s with xCode := x } = pushByte b s := by
  have hfull : bufFull { s with xCode := x } = bufFull s := rfl
  unfold pushByte
  rw [hfull]
  split <;> rfl

theorem pushByte_of_unread (b : Byte) :
    pushByte b { s with csAcc := a, tx := old, fValid := v, dWhy := w } =
      { pushByte b s with csAcc := a, tx := old, fValid := v, dWhy := w } := by
  have hfull : bufFull { s with csAcc := a, tx := old, fValid := v, dWhy := w } = bufFull s := rfl
  unfold pushByte
  rw [hfull]
  split <;> rfl

theorem decAppend_of_unread (bs : List Byte) :
    decAppend bs { s with csAcc := a, tx := old, fValid := v, dWhy := w } =
      { decAppend bs s with csAcc := a, tx := old, fValid := v, dWhy := w } := by
  induction bs generalizing s with
  | nil => rfl
  | cons b bs ih =>
    have hfull : bufFull { s with csAcc := a, tx := old, fValid := v, dWhy := w } = bufFull s := rfl
    rw [decAppend, decAppend, hfull, pushByte_of_unread, ih]
    split <;> rfl

/-- The first push overwrites X_CODE. -/
theorem decAppend_of_xCode {bs : List Byte} (hne : bs ≠ []) :
    decAppend bs { s with xCode := x } = decAppend bs s := by
  cases bs with
  | nil => exact absurd rfl hne
  | cons b bs =>
    have hfull : bufFull { s with xCode := x } = bufFull s := rfl
    rw [decAppend, decAppend, hfull, pushByte_of_xCode]
    rfl

/-- R97: an attempt keeps CS_ACC and TX, and overwrites the flags. -/
theorem tryOnce_of_unread :
    tryOnce { s with csAcc := a, tx := old, fValid := v, dWhy := w, xCode := x } =
      { tryOnce s with csAcc := a, tx := old } := by
  unfold tryOnce writeAttempt
  dsimp only
  split <;> rfl

/-- R14, R33: an arriving frame neither reads nor writes CS_ACC and TX. -/
theorem receiveFrame_of_csAcc_tx (bs : List Byte) :
    receiveFrame bs { s with csAcc := a, tx := old } = { receiveFrame bs s with csAcc := a, tx := old } := by
  unfold receiveFrame
  rw [decAppend_of_unread, ← decAppend_fValid bs s, ← decAppend_dWhy bs s, tryOnce_of_unread]
  dsimp only
  split <;> rfl

/-- R22: an arriving frame leaves the same state whatever the flags were, unless a push is refused; then it leaves them as they
were, but for X_CODE. -/
theorem receiveFrame_of_flags {bs : List Byte} (hne : bs ≠ []) :
    receiveFrame bs { s with fValid := v, dWhy := w, xCode := x } = receiveFrame bs s ∨
      (receiveFrame bs s = decAppend bs s ∧
        receiveFrame bs { s with fValid := v, dWhy := w, xCode := x } =
          { decAppend bs s with fValid := v, dWhy := w }) := by
  have happend : decAppend bs { s with fValid := v, dWhy := w, xCode := x } =
      { decAppend bs s with fValid := v, dWhy := w } := by
    rw [decAppend_of_xCode { s with fValid := v, dWhy := w } x hne, decAppend_of_unread,
      ← decAppend_csAcc bs s, ← decAppend_tx bs s]
  unfold receiveFrame
  rw [happend]
  by_cases hrefused : (decAppend bs s).xCode = xRxFull
  · exact .inr ⟨if_pos hrefused, if_pos hrefused⟩
  · have htry : tryOnce { decAppend bs s with fValid := v, dWhy := w } = tryOnce (decAppend bs s) := by
      rw [tryOnce_of_unread, ← tryOnce_csAcc, ← tryOnce_tx]
    rw [if_neg hrefused, if_neg hrefused, htry]
    exact .inl rfl

end Sys2Proof.Proofs
end

section
/-! Every step keeps the invariants of R29: one lemma per shared operation, then `exec`, then the step. -/

namespace Sys2Proof.Proofs

open Sys2Proof Sys2Proof.Machine

theorem exitCode_toNat_le (e : Exit) : (exitCode e).toNat ≤ 5 := by
  cases e <;> decide

theorem exitCode_eq_frame_iff (e : Exit) : exitCode e = exitCode .frame ↔ e = .frame := by
  cases e <;> decide

/-- The invariants speak of the parameters, the buffer and the decoder's results alone. -/
theorem inv_of_results_eq {s t : State} (hs : Inv s) (hwf : Memory.wf t.cfg t.buf = true) (hvalid : t.fValid = s.fValid)
    (hlen : t.fLen = s.fLen) (hpayload : t.fPayload = s.fPayload) (hwhy : t.dWhy = s.dWhy) : Inv t where
  bufWf := hwf
  frameLength := by rw [hvalid, hlen, hpayload]; exact hs.frameLength
  whyCode := by rw [hwhy]; exact hs.whyCode
  validIffFrame := by rw [hvalid, hwhy]; exact hs.validIffFrame

theorem inv_decAppend {s : State} (bs : List Byte) (hs : Inv s) : Inv (decAppend bs s) :=
  inv_of_results_eq hs (memory_wf_decAppend bs hs.bufWf) (by simp) (by simp) (by simp) (by simp)

/-- R29(b): the frame an attempt returns has as many payload bytes as its length says. -/
theorem tryOnce_frameLength (s : State) (hvalid : (tryOnce s).fValid = true) :
    (tryOnce s).fPayload.length = (tryOnce s).fLen.toNat := by
  obtain ⟨f, hframe⟩ : ∃ f, (tryDecode s.buf).frame = some f :=
    Option.isSome_iff_exists.mp ((tryOnce_fValid s).symm.trans hvalid)
  rw [tryOnce_of_frame (s := s) (f := f) (by rw [← hframe])]
  exact (tryDecode_frame s.buf).1 f hframe

/-- An attempt writes all the decoder's results, so it needs the buffer's bound alone. -/
theorem inv_tryOnce {s : State} (hwf : Memory.wf s.cfg s.buf = true) : Inv (tryOnce s) where
  bufWf := memory_wf_tryOnce hwf
  frameLength := tryOnce_frameLength s
  whyCode := by rw [tryOnce_dWhy]; exact exitCode_toNat_le _
  validIffFrame := by
    rw [tryOnce_fValid, tryOnce_dWhy, exitCode_eq_frame_iff]
    exact (tryDecode_frame s.buf).2

theorem inv_receiveFrame {s : State} (bs : List Byte) (hs : Inv s) : Inv (receiveFrame bs s) := by
  have happend := inv_decAppend bs hs
  unfold receiveFrame
  split
  · exact happend
  · exact inv_tryOnce happend.bufWf

theorem inv_resetBlock (s : State) : Inv (resetBlock s) where
  bufWf := memory_wf_nil s.cfg
  frameLength := by simp
  whyCode := by simp
  validIffFrame := by simp [exitCode]

/-- R29: every instruction keeps the invariants. -/
theorem inv_exec {i : Instr} {s t : State} (hs : Inv s) (hexec : exec i s = .next t) : Inv t := by
  induction i using exec_cases with
  | reset => cases hexec; exact inv_resetBlock s
  | decTry => cases hexec; exact inv_tryOnce hs.bufWf
  | decPush b =>
    cases hexec
    exact inv_of_results_eq hs (memory_wf_pushByte b hs.bufWf) (by simp) (by simp) (by simp) (by simp)
  | csClr | csFold | reserved6 | reserved7 => cases hexec; exact inv_of_results_eq hs hs.bufWf rfl rfl rfl rfl
  | enc =>
    rw [exec_enc] at hexec
    cases hexec
    exact inv_of_results_eq hs hs.bufWf rfl rfl rfl rfl
  | frameRow i kind payload c _ hrow =>
    rw [hrow] at hexec
    cases hexec
    exact inv_receiveFrame _ hs

/-- R7, R156: a step that answers a state was idle and kept it, or ran the fetched operation with its record consumed. -/
theorem step_cases {s t : State} (hstep : step s = .next t) :
    t = s ∨ ∃ i rest, fetch s = .op i rest ∧ exec i { s with trace := rest } = .next t := by
  cases hfetch : fetch s with
  | idle =>
    simp only [step, hfetch] at hstep
    cases hstep
    exact .inl rfl
  | op i rest => exact .inr ⟨i, rest, rfl, (step_eq_exec_of_fetch hfetch).symm.trans hstep⟩
  | stop r => simp [step, hfetch] at hstep

/-- Settles O55: an idle step keeps the state, and any other runs one instruction, which keeps the invariants. -/
theorem stepKeepsTheInvariants : Obligations.StepKeepsTheInvariants := by
  intro s t hs hstep
  obtain rfl | ⟨i, rest, _, hexec⟩ := step_cases hstep
  · exact hs
  · have hrest : Inv { s with trace := rest } := inv_of_results_eq hs hs.bufWf rfl rfl rfl rfl
    exact inv_exec hrest hexec

/-- Settles O56: nothing is said of a frame while F_VALID = 0, so the free values do not matter. -/
theorem resetSatisfiesTheInvariants : Obligations.ResetSatisfiesTheInvariants where
  bufWf := memory_wf_reset
  frameLength := by simp [State.reset]
  whyCode := by simp [State.reset]
  validIffFrame := by simp [State.reset, exitCode]

end Sys2Proof.Proofs
end

section
/-! The transmit history (R33, R89) and the accumulator (R14). -/

namespace Sys2Proof.Proofs

open Sys2Proof Sys2Proof.Machine

theorem sameForTheHost_refl (t : State) : SameForTheHost t t := ⟨rfl, rfl⟩

/-- R33: an instruction appends to TX what `emittedBy` says, and does the same to everything else whatever TX holds. -/
theorem exec_tx (i : Instr) (s : State) :
    ∃ t, exec i s = .next t ∧ t.tx = s.tx ++ emittedBy i ∧
      ∀ old : List Byte, exec i { s with tx := old } = .next { t with tx := old ++ emittedBy i } := by
  induction i using exec_cases with
  | reset | csClr | csFold | reserved6 | reserved7 =>
    exact ⟨_, rfl, (List.append_nil _).symm, fun old => by simp only [emittedBy, List.append_nil]; rfl⟩
  | enc kind payload => exact ⟨_, exec_enc kind payload s, rfl, fun old => exec_enc kind payload { s with tx := old }⟩
  | decPush b =>
    refine ⟨_, rfl, by simp [emittedBy], fun old => ?_⟩
    simp [emittedBy, pushByte_of_unread]
  | decTry =>
    refine ⟨_, rfl, by simp [emittedBy], fun old => ?_⟩
    simp [emittedBy, tryOnce_of_unread]
  | frameRow i kind payload c hrow hexec =>
    refine ⟨_, hexec s, by simp [emittedBy_of_frameRow hrow], fun old => ?_⟩
    simp [emittedBy_of_frameRow hrow, hexec, receiveFrame_of_csAcc_tx]

/-- R49: what follows an operation sees its complete effect. -/
theorem runOps_cons_of_next {i : Instr} {s t : State} (hexec : exec i s = .next t) (is : List Instr) :
    runOps (i :: is) s = runOps is t := by
  simp [runOps, hexec]

/-- R33, R49: the same of a sequence of instructions. -/
theorem runOps_tx (is : List Instr) (s : State) :
    ∃ t, runOps is s = .next t ∧ t.tx = s.tx ++ is.flatMap emittedBy ∧
      ∀ old : List Byte, runOps is { s with tx := old } = .next { t with tx := old ++ is.flatMap emittedBy } := by
  induction is generalizing s with
  | nil => exact ⟨s, rfl, by simp, fun old => by simp [runOps]⟩
  | cons i is ih =>
    obtain ⟨m, hm, hmtx, hmold⟩ := exec_tx i s
    obtain ⟨t, ht, httx, htold⟩ := ih m
    refine ⟨t, (runOps_cons_of_next hm is).trans ht, ?_, fun old => ?_⟩
    · rw [httx, hmtx, List.flatMap_cons, List.append_assoc]
    · rw [runOps_cons_of_next (hmold old), List.flatMap_cons, ← List.append_assoc]
      exact htold (old ++ emittedBy i)

/-- Settles O19: a sequence appends to TX its ENCs' frames, and runs alike whatever TX held. -/
theorem transmitHistoryIsWholeFrames : Obligations.TransmitHistoryIsWholeFrames := by
  intro is s
  obtain ⟨t, ht, htx, hold⟩ := runOps_tx is s
  exact ⟨t, ht, htx, fun old => ⟨_, hold old, sameForTheHost_refl _⟩⟩

/-- R14: an instruction other than CS_CLR, CS_FOLD and RESET neither reads nor writes the accumulator. -/
theorem exec_csAcc {i : Instr} (s : State) (hclr : i ≠ .csClr) (hreset : i ≠ .reset) (hfold : ∀ b, i ≠ .csFold b) :
    ∃ t, exec i s = .next t ∧ t.csAcc = s.csAcc ∧
      ∀ a : Byte, exec i { s with csAcc := a } = .next { t with csAcc := a } := by
  induction i using exec_cases with
  | reset => exact absurd rfl hreset
  | csClr => exact absurd rfl hclr
  | csFold b => exact absurd rfl (hfold b)
  | enc kind payload => exact ⟨_, exec_enc kind payload s, rfl, fun a => exec_enc kind payload { s with csAcc := a }⟩
  | reserved6 | reserved7 => exact ⟨_, rfl, rfl, fun _ => rfl⟩
  | decPush b =>
    refine ⟨_, rfl, pushByte_csAcc b s, fun a => ?_⟩
    simp [pushByte_of_unread]
  | decTry =>
    refine ⟨_, rfl, tryOnce_csAcc s, fun a => ?_⟩
    simp [tryOnce_of_unread]
  | frameRow i kind payload c _ hexec =>
    refine ⟨_, hexec s, receiveFrame_csAcc _ s, fun a => ?_⟩
    simp [hexec, receiveFrame_of_csAcc_tx]

/-- Settles O51: the three writers by their equations, every other instruction by `exec_csAcc`. -/
theorem onlyCsAndResetWriteTheAccumulator : Obligations.OnlyCsAndResetWriteTheAccumulator := by
  refine ⟨fun s => ⟨_, exec_csClr s, rfl⟩, fun s => ⟨_, exec_reset s, rfl⟩, fun b s => ⟨_, exec_csFold b s, rfl⟩, ?_⟩
  intro i s hclr hreset hfold
  obtain ⟨t, ht, hacc, hany⟩ := exec_csAcc s hclr hreset hfold
  exact ⟨t, ht, hacc, fun a => ⟨_, hany a, sameForTheHost_refl _⟩⟩

end Sys2Proof.Proofs
end

section
/-! The decoder's results and the flags: what keeps them (R32), and that nothing reads them (R21, R22). -/

namespace Sys2Proof.Proofs

open Sys2Proof Sys2Proof.Machine

/-- Settles O52: of the command port's operations DEC_TRY and RESET alone write the decoder's results. -/
theorem decoderResultsLastUntilTheNextTry : Obligations.DecoderResultsLastUntilTheNextTry := by
  intro i s hop htry hreset
  induction i using exec_cases with
  | decTry => exact absurd rfl htry
  | reset => exact absurd rfl hreset
  | csClr | csFold | reserved6 | reserved7 => exact ⟨_, rfl, rfl, rfl, rfl, rfl, rfl⟩
  | enc kind payload => exact ⟨_, exec_enc kind payload s, rfl, rfl, rfl, rfl, rfl⟩
  | decPush b => exact ⟨_, exec_decPush b s, by simp⟩
  | frameRow i kind payload c hrow _ => rw [hrow] at hop; cases hop

/-- R22: an operation other than DEC_TRY and RESET does the same to everything else whatever the flags are. -/
theorem exec_of_flags {i : Instr} {s t : State} (hop : isOperation i = true) (htry : i ≠ .decTry) (hreset : i ≠ .reset)
    (hexec : exec i s = .next t) (v : Bool) (w : BitVec 3) (x : BitVec 2) :
    exec i { s with fValid := v, dWhy := w, xCode := x } = .next { t with fValid := v, dWhy := w } := by
  induction i using exec_cases with
  | decTry => exact absurd rfl htry
  | reset => exact absurd rfl hreset
  | csClr | csFold | reserved6 | reserved7 => cases hexec; rfl
  | enc kind payload =>
    rw [exec_enc] at hexec ⊢
    cases hexec
    rfl
  | decPush b =>
    cases hexec
    rw [exec_decPush, pushByte_of_xCode { s with fValid := v, dWhy := w }, pushByte_of_unread,
      ← pushByte_csAcc b s, ← pushByte_tx b s]
  | frameRow i kind payload c hrow _ => rw [hrow] at hop; cases hop

/-- Settles O50: DEC_TRY and RESET overwrite the flags, the other operations keep them, and an arriving frame does the first, or
the second where a push is refused. -/
theorem flagsAreNoInputs : Obligations.FlagsAreNoInputs := by
  intro i s v w x
  have hsame := sameForTheHost_refl
  by_cases hreset : i = .reset
  · subst hreset
    exact ⟨_, _, exec_reset s, exec_reset _, .inl (hsame _), fun _ => hsame _, fun _ _ h => absurd rfl h⟩
  by_cases htry : i = .decTry
  · subst htry
    have hflags : tryOnce { s with fValid := v, dWhy := w, xCode := x } = tryOnce s := by
      rw [tryOnce_of_unread, ← tryOnce_csAcc, ← tryOnce_tx]
    refine ⟨_, _, exec_decTry s, exec_decTry _, ?_⟩
    rw [hflags]
    exact ⟨.inl (hsame _), fun _ => hsame _, fun _ h => absurd rfl h⟩
  have hneither : ¬ (i = .decTry ∨ i = .reset) := not_or.mpr ⟨htry, hreset⟩
  cases hop : isOperation i with
  | true =>
    obtain ⟨t, hexec, hvalid, hkind, hlen, hpayload, hwhy⟩ := decoderResultsLastUntilTheNextTry i s hop htry hreset
    exact ⟨t, _, hexec, exec_of_flags hop htry hreset hexec v w x, .inr ⟨hvalid, hwhy, hkind, hlen, hpayload, rfl⟩,
      fun h => absurd h hneither, fun _ _ _ => rfl⟩
  | false =>
    obtain ⟨kind, payload, c, hexec⟩ := exec_eq_receiveFrame hop
    refine ⟨_, _, hexec s, hexec _, ?_, fun h => absurd h hneither, nofun⟩
    obtain hflags | ⟨hrefused, hflags⟩ := receiveFrame_of_flags s v w x (bs := wireFrame kind payload c) (by simp [wireFrame])
    · rw [hflags]
      exact .inl (hsame _)
    · rw [hflags, hrefused]
      exact .inr ⟨by simp, by simp, by simp, by simp, by simp, rfl⟩

end Sys2Proof.Proofs
end

section
/-! How the buffer changes (R15), and the outputs derived from it (R24). -/

namespace Sys2Proof.Proofs

open Sys2Proof Sys2Proof.Machine

theorem memory_wf_iff_of_finite {cfg : Config} {buf : List Byte} {c : Nat} (hcap : cfg.bufCap = .finite c) :
    Memory.wf cfg buf = true ↔ buf.length ≤ c := by
  simp [Memory.wf, BufCap.hasRoom, hcap]

/-- R15, R23: an instruction keeps the parameters, and the buffer within its capacity. -/
theorem exec_keeps_capacity {i : Instr} {s t : State} (hexec : exec i s = .next t) :
    t.cfg = s.cfg ∧ (Memory.wf s.cfg s.buf = true → Memory.wf t.cfg t.buf = true) := by
  induction i using exec_cases with
  | reset => cases hexec; exact ⟨rfl, fun _ => memory_wf_nil s.cfg⟩
  | csClr | csFold | reserved6 | reserved7 => cases hexec; exact ⟨rfl, id⟩
  | enc => rw [exec_enc] at hexec; cases hexec; exact ⟨rfl, id⟩
  | decPush b => cases hexec; exact ⟨pushByte_cfg b s, memory_wf_pushByte b⟩
  | decTry => cases hexec; exact ⟨tryOnce_cfg s, memory_wf_tryOnce⟩
  | frameRow i kind payload c _ hrow =>
    rw [hrow] at hexec
    cases hexec
    exact ⟨receiveFrame_cfg _ s, memory_wf_receiveFrame _⟩

/-- R96: a push puts its byte at the end, or is refused. -/
theorem pushByte_buf_eq_or (b : Byte) (s : State) : (pushByte b s).buf = s.buf ++ [b] ∨ (pushByte b s).buf = s.buf := by
  unfold pushByte
  split
  · exact .inr rfl
  · exact .inl rfl

/-- Settles O53: operation by operation, and the bound by `exec_keeps_capacity`. -/
theorem bufferMutations : Obligations.BufferMutations := by
  intro i s hop
  have hbound : ∀ t, exec i s = .next t → ∀ c, s.cfg.bufCap = .finite c → s.buf.length ≤ c →
      t.cfg.bufCap = .finite c ∧ t.buf.length ≤ c := by
    intro t hexec c hcap hlen
    obtain ⟨hcfg, hwf⟩ := exec_keeps_capacity hexec
    have hcap' : t.cfg.bufCap = .finite c := by rw [hcfg, hcap]
    exact ⟨hcap', (memory_wf_iff_of_finite hcap').mp (hwf ((memory_wf_iff_of_finite hcap).mpr hlen))⟩
  induction i using exec_cases with
  | reset => exact ⟨_, exec_reset s, nofun, nofun, fun _ => rfl, fun _ _ h => absurd rfl h, hbound _ rfl⟩
  | decPush b =>
    refine ⟨_, exec_decPush b s, ?_, nofun, nofun, fun h => absurd rfl (h b), hbound _ rfl⟩
    rintro _ ⟨⟩
    exact pushByte_buf_eq_or b s
  | decTry => exact ⟨_, exec_decTry s, nofun, fun _ => ⟨_, tryOnce_buf s⟩, nofun, fun _ h => absurd rfl h, hbound _ rfl⟩
  | csClr | csFold | reserved6 | reserved7 => exact ⟨_, rfl, nofun, nofun, nofun, fun _ _ _ => rfl, hbound _ rfl⟩
  | enc kind payload =>
    exact ⟨_, exec_enc kind payload s, nofun, nofun, nofun, fun _ _ _ => rfl, hbound _ (exec_enc kind payload s)⟩
  | frameRow i kind payload c hrow _ => rw [hrow] at hop; cases hop

/-- Settles O59: BUF_FULL by the two forms of BUF_CAP, and BLEN's width by the rounding up of the logarithm. -/
theorem derivedOutputsFollowTheBuffer : Obligations.DerivedOutputsFollowTheBuffer := by
  refine ⟨fun s => ⟨rfl, by simp [bufEmpty], ?_, ?_⟩, by norm_num⟩
  · intro c hcap
    exact ⟨by simp [bufFull, hcap], fun hlen => (Nat.lt_succ_of_le hlen).trans_le (Nat.le_pow_clog one_lt_two (c + 1))⟩
  · intro hcap
    simp [bufFull, hcap]

end Sys2Proof.Proofs
end

section
/-! The reads of BUF (R40) after each of its mutations: an append (R41) and a drop (R42). -/

namespace Sys2Proof.Proofs

open Sys2Proof Sys2Proof.Machine

@[simp] theorem bufAppend_length (b : Byte) (bs : List Byte) : (bufAppend b bs).length = bs.length + 1 :=
  List.length_append

/-- R41: the byte appended is read at the old BLEN. -/
theorem memRead1_bufAppend_length (b : Byte) (bs : List Byte) (h : bs.length + 1 ≤ (bufAppend b bs).length) :
    memRead1 (bufAppend b bs) bs.length h = b :=
  List.getElem_concat_length rfl h

/-- R41: an append leaves the bytes before it in place. -/
theorem memRead1_bufAppend_of_lt (b : Byte) {bs : List Byte} {a : Nat} (h : a < bs.length)
    (h' : a + 1 ≤ (bufAppend b bs).length) : memRead1 (bufAppend b bs) a h' = memRead1 bs a h :=
  List.getElem_append_left h

/-- R42: after a drop of `n` an offset counts from the old offset `n`. -/
theorem memRead1_bufDrop {n a : Nat} {bs : List Byte} (h : a + 1 ≤ (bufDrop n bs).length) (h' : n + a + 1 ≤ bs.length) :
    memRead1 (bufDrop n bs) a h = memRead1 bs (n + a) h' :=
  List.getElem_drop

/-- R40: the two-byte read is little-endian. -/
theorem memRead2_toNat {bs : List Byte} {a : Nat} (h : a < bs.length) (h' : a + 2 ≤ bs.length) :
    (memRead2 bs a h').toNat = (memRead1 bs a h).toNat + 256 * (memRead1 bs (a + 1) h').toNat :=
  lenOf_toNat bs[a] bs[a + 1]

/-- Settles O57: the rules for the append, the drop and the two-byte read together. -/
theorem bufferReadsAfterAppendAndDrop : Obligations.BufferReadsAfterAppendAndDrop :=
  ⟨fun bs b => ⟨bufAppend_length b bs, memRead1_bufAppend_length b bs _⟩,
    fun _ b _ _ h =>
      ⟨memRead1_bufAppend_of_lt b h _, fun h' => memRead1_bufDrop _ h', fun h' => memRead2_toNat h h'⟩⟩

end Sys2Proof.Proofs
end

section
/-! The frame rows as one family: whichever row a kind selects, its bytes and its well-formedness are the same
(R57, R62). -/

namespace Sys2Proof.Proofs

open Sys2Proof Sys2Proof.Machine

/-- R55: whatever row a kind selects, the row's bytes are the wire frame of that kind. -/
theorem encode_frameInstr (kind : Byte) (payload : List Byte) (c : Byte) :
    encode (frameInstr kind payload c) = wireFrame kind payload c := by
  cases hname : kindOfByte kind with
  | none => simp [frameInstr, hname, encode]
  | some name =>
    obtain rfl := kindCode_of_kindOfByte hname
    cases name <;> rfl

/-- R58: the payload's length alone decides whether a row selected by its kind is well-formed. -/
theorem frameInstr_wf (kind : Byte) (payload : List Byte) (c : Byte) :
    (frameInstr kind payload c).wf = fitsLength payload := by
  cases hname : kindOfByte kind with
  | none => simp [frameInstr, hname, Instr.wf]
  | some name =>
    obtain rfl := kindCode_of_kindOfByte hname
    cases name <;> rfl

end Sys2Proof.Proofs
end

section
/-! What bytes can be to the decoder: an unassigned first byte, a record cut short, or the encoding of a well-formed operation or
frame with bytes after it (R55, R65, R68). One lemma per operand form, then `decode_cases`. -/

namespace Sys2Proof.Proofs

open Sys2Proof Sys2Proof.Machine

/-- R56, R68: a first byte is one of the eight OPSEL codes, the sync byte, or unassigned. -/
theorem firstByte_cases {motive : Byte → Prop} (reset : motive 0x00#8) (csClr : motive 0x01#8) (csFold : motive 0x02#8)
    (enc : motive 0x03#8) (decPush : motive 0x04#8) (decTry : motive 0x05#8) (reserved6 : motive 0x06#8)
    (reserved7 : motive 0x07#8) (sync : motive syncByte)
    (unassigned : ∀ b, 8 ≤ b.toNat → b ≠ syncByte → motive b) (b : Byte) : motive b := by
  by_cases hsync : b = syncByte
  · exact hsync ▸ sync
  by_cases hcode : 8 ≤ b.toNat
  · exact unassigned b hcode hsync
  obtain rfl | rfl | rfl | rfl | rfl | rfl | rfl | rfl : b = 0x00#8 ∨ b = 0x01#8 ∨ b = 0x02#8 ∨ b = 0x03#8 ∨
      b = 0x04#8 ∨ b = 0x05#8 ∨ b = 0x06#8 ∨ b = 0x07#8 := by bv_omega
  all_goals assumption

/-- Log entry 5: an unassigned first byte is rejected by name. -/
theorem decode_of_unassigned {b : Byte} (hcode : 8 ≤ b.toNat) (hsync : b ≠ syncByte) (rest : List Byte) :
    decode (b :: rest) = .bad (.notARecord b) := by
  have hne : ∀ n < 8, b ≠ BitVec.ofNat 8 n := by bv_omega
  simp [decode, decodeAfter, hne, hsync]

/-- R68: the count of a record has 32 bits. -/
theorem countOf_lt (n0 n1 n2 n3 : Byte) : countOf n0 n1 n2 n3 < 2 ^ 32 := by
  unfold countOf
  omega

/-- R68: ENC's operands end too early, or they are those of a record. -/
theorem decodeEnc_cases (bs : List Byte) :
    decodeEnc bs = .bad .truncated ∨ ∃ i rest, i.wf = true ∧ 0x03#8 :: bs = encode i ++ rest := by
  unfold decodeEnc
  split
  next kind n0 n1 n2 n3 body =>
    split
    · exact .inl rfl
    next henough =>
      have hlen : (body.take (countOf n0 n1 n2 n3)).length = countOf n0 n1 n2 n3 :=
        List.length_take_of_le (Nat.le_of_not_lt henough)
      refine .inr ⟨.enc kind (body.take (countOf n0 n1 n2 n3)), body.drop (countOf n0 n1 n2 n3), ?_, ?_⟩
      · simp only [Instr.wf, hlen, decide_eq_true_eq]
        exact countOf_lt n0 n1 n2 n3
      · simp [encode, hlen, countByte_countOf, -List.length_take]
  · exact .inl rfl

/-- R55: the bytes after a sync end too early, or they are those of a frame. -/
theorem decodeFrame_cases (bs : List Byte) :
    decodeFrame bs = .bad .truncated ∨ ∃ i rest, i.wf = true ∧ syncByte :: bs = encode i ++ rest := by
  unfold decodeFrame
  split
  next kind lo hi body =>
    split
    next c rest hdrop =>
      have hlen : (body.take (lenOf lo hi).toNat).length = (lenOf lo hi).toNat := by
        have := congrArg List.length hdrop
        simp only [List.length_drop, List.length_cons] at this
        exact List.length_take_of_le (by omega)
      refine .inr ⟨frameInstr kind (body.take (lenOf lo hi).toNat) c, rest, ?_, ?_⟩
      · simp only [frameInstr_wf, fitsLength, hlen, decide_eq_true_eq]
        exact Nat.le_of_lt_succ (lenOf lo hi).isLt
      · rw [encode_frameInstr, wireFrame_eq, hlen, lenLo_lenOf, lenHi_lenOf]
        simp [← hdrop]
    · exact .inl rfl
  · exact .inl rfl

/-- R55, R65, R68: no bytes, an unassigned first byte, a record cut short, or an encoding; `decode_of_unassigned` and
`decodeEncodeRoundTrip` say what the second and the last decode to. -/
theorem decode_cases (bs : List Byte) :
    bs = [] ∨ (∃ b rest, bs = b :: rest ∧ 8 ≤ b.toNat ∧ b ≠ syncByte) ∨ decode bs = .bad .truncated ∨
      ∃ i rest, i.wf = true ∧ bs = encode i ++ rest := by
  cases bs with
  | nil => exact .inl rfl
  | cons op bs =>
    refine .inr ?_
    induction op using firstByte_cases with
    | unassigned b hcode hsync => exact .inl ⟨b, bs, rfl, hcode, hsync⟩
    | reset => exact .inr (.inr ⟨.reset, bs, rfl, rfl⟩)
    | csClr => exact .inr (.inr ⟨.csClr, bs, rfl, rfl⟩)
    | decTry => exact .inr (.inr ⟨.decTry, bs, rfl, rfl⟩)
    | reserved6 => exact .inr (.inr ⟨.reserved6, bs, rfl, rfl⟩)
    | reserved7 => exact .inr (.inr ⟨.reserved7, bs, rfl, rfl⟩)
    | csFold =>
      cases bs with
      | nil => exact .inr (.inl rfl)
      | cons b rest => exact .inr (.inr ⟨.csFold b, rest, rfl, rfl⟩)
    | decPush =>
      cases bs with
      | nil => exact .inr (.inl rfl)
      | cons b rest => exact .inr (.inr ⟨.decPush b, rest, rfl, rfl⟩)
    | enc => exact .inr (decodeEnc_cases bs)
    | sync => exact .inr (decodeFrame_cases bs)

end Sys2Proof.Proofs
end

section
/-! The record format: decode and encode are inverse to each other, so no record is a proper beginning of another (R55, R68). -/

namespace Sys2Proof.Proofs

open Sys2Proof Sys2Proof.Machine

/-- Settles O1, row by row. -/
theorem decodeEncodeRoundTrip : Obligations.DecodeEncodeRoundTrip := by
  intro i
  cases i with
  | reset => exact Laws.RoundTrip.reset
  | csClr => exact Laws.RoundTrip.csClr
  | csFold b => exact Laws.RoundTrip.csFold b
  | enc kind payload => exact Laws.RoundTrip.enc kind payload
  | decPush b => exact Laws.RoundTrip.decPush b
  | decTry => exact Laws.RoundTrip.decTry
  | reserved6 => exact Laws.RoundTrip.reserved6
  | reserved7 => exact Laws.RoundTrip.reserved7
  | frame kind payload c => exact Laws.RoundTrip.frame kind payload c
  | frameTick payload c => exact Laws.RoundTrip.frameTick payload c
  | frameTransport payload c => exact Laws.RoundTrip.frameTransport payload c
  | frameVoices payload c => exact Laws.RoundTrip.frameVoices payload c
  | frameMidiIn payload c => exact Laws.RoundTrip.frameMidiIn payload c
  | frameCcState payload c => exact Laws.RoundTrip.frameCcState payload c
  | frameDebug payload c => exact Laws.RoundTrip.frameDebug payload c
  | framePlay payload c => exact Laws.RoundTrip.framePlay payload c
  | frameStop payload c => exact Laws.RoundTrip.frameStop payload c
  | frameRecord payload c => exact Laws.RoundTrip.frameRecord payload c
  | frameTempo payload c => exact Laws.RoundTrip.frameTempo payload c
  | frameReqState payload c => exact Laws.RoundTrip.frameReqState payload c

/-- Settles O2: of all that bytes can be, an encoding alone decodes, and to what it is of. -/
theorem encodeDecodeRoundTrip : Obligations.EncodeDecodeRoundTrip := by
  intro bs rest i hdecode
  obtain rfl | ⟨b, tail, rfl, hcode, hsync⟩ | htruncated | ⟨j, tail, hwf, rfl⟩ := decode_cases bs
  · cases hdecode
  · rw [decode_of_unassigned hcode hsync] at hdecode
    cases hdecode
  · rw [htruncated] at hdecode
    cases hdecode
  · rw [decodeEncodeRoundTrip j tail hwf] at hdecode
    cases hdecode
    exact ⟨hwf, rfl⟩

/-- Records are read in one way: the same bytes begin with one record, and the same bytes follow it. -/
theorem encode_append_inj {i j : Instr} {rest tail : List Byte} (hi : i.wf = true) (hj : j.wf = true)
    (heq : encode i ++ rest = encode j ++ tail) : i = j ∧ rest = tail := by
  have hdecode := decodeEncodeRoundTrip i rest hi
  rw [heq, decodeEncodeRoundTrip j tail hj, Decoded.ok.injEq] at hdecode
  exact ⟨hdecode.1.symm, hdecode.2.symm⟩

/-- Log entry 5: a record's first bytes, without its last, are one cut short. A whole record in them would be a second reading of
the same bytes. -/
theorem decode_of_cut_short {i : Instr} (hwf : i.wf = true) {front back : List Byte} (hsplit : encode i = front ++ back)
    (hfront : front ≠ []) (hback : back ≠ []) : decode front = .bad .truncated := by
  have hdecode : decode (front ++ back) = .ok i [] := by
    rw [← hsplit, ← List.append_nil (encode i), decodeEncodeRoundTrip i [] hwf]
  obtain hnil | ⟨b, tail, rfl, hcode, hsync⟩ | htruncated | ⟨j, tail, hj, rfl⟩ := decode_cases front
  · exact absurd hnil hfront
  · rw [List.cons_append, decode_of_unassigned hcode hsync] at hdecode
    cases hdecode
  · exact htruncated
  · have hrest : [] = tail ++ back := (encode_append_inj hwf hj (by simpa using hsplit)).2
    exact absurd (List.append_eq_nil_iff.mp hrest.symm).2 hback

/-- Settles O4: the first bytes of a record, fewer than all, are one cut short. -/
theorem nonRecordsAreRejected : Obligations.NonRecordsAreRejected := by
  refine ⟨rfl, fun b rest hcode hsync => decode_of_unassigned hcode hsync rest, ?_⟩
  intro i k hwf hpos hlt
  refine decode_of_cut_short hwf (List.take_append_drop k (encode i)).symm ?_ ?_
  · exact List.ne_nil_of_length_pos (by rw [List.length_take]; omega)
  · exact List.ne_nil_of_length_pos (by rw [List.length_drop]; omega)

/-- Settles O3: each of the ten words is the encoding of its operation or frame. -/
theorem specWordsDecode : Obligations.SpecWordsDecode :=
  ⟨decodeEncodeRoundTrip .reset [] rfl, decodeEncodeRoundTrip .csClr [] rfl,
    decodeEncodeRoundTrip (.csFold 0x5A#8) [] rfl,
    decodeEncodeRoundTrip (.enc 0x01#8 [0x2A#8, 0x00#8, 0x00#8, 0x00#8]) [] rfl,
    decodeEncodeRoundTrip (.decPush 0xAA#8) [] rfl, decodeEncodeRoundTrip .decTry [] rfl,
    decodeEncodeRoundTrip .reserved6 [] rfl, decodeEncodeRoundTrip .reserved7 [] rfl,
    decodeEncodeRoundTrip (.frameTick [0x2A#8, 0x00#8, 0x00#8, 0x00#8] 0x2F#8) [] rfl,
    decodeEncodeRoundTrip (.frame 0xAA#8 [0xAA#8] 0x01#8) [] rfl⟩

end Sys2Proof.Proofs
end

section
/-! A wire frame that arrives with room for it: its bytes are taken, and one attempt is made (R71, R107). -/

namespace Sys2Proof.Proofs

open Sys2Proof Sys2Proof.Machine

/-- R62: each of the twelve rows is the arrival of the wire frame of its kind. -/
theorem exec_of_mem_frameRows {kind c : Byte} {payload : List Byte} {row : Instr × Byte}
    (hrow : row ∈ frameRows kind payload c) (s : State) :
    exec row.1 s = .next (receiveFrame (wireFrame row.2 payload c) s) := by
  simp only [frameRows, List.mem_cons, List.not_mem_nil, or_false] at hrow
  obtain rfl | rfl | rfl | rfl | rfl | rfl | rfl | rfl | rfl | rfl | rfl | rfl := hrow <;> rfl

/-- R71: with room all bytes of the frame are taken. -/
theorem decAppend_wireFrame_of_hasRoom {s : State} {payload : List Byte}
    (hroom : s.cfg.bufCap.hasRoom s.buf.length (payload.length + 5) = true) (kind c : Byte) :
    decAppend (wireFrame kind payload c) s = { s with buf := s.buf ++ wireFrame kind payload c, xCode := xOk } :=
  decAppend_of_hasRoom (by simp [wireFrame]) (by simpa using hroom)

/-- R71, R107: with room no push is refused, so the attempt is made. -/
theorem receiveFrame_wireFrame_of_hasRoom {s : State} {payload : List Byte}
    (hroom : s.cfg.bufCap.hasRoom s.buf.length (payload.length + 5) = true) (kind c : Byte) :
    receiveFrame (wireFrame kind payload c) s = tryOnce (decAppend (wireFrame kind payload c) s) := by
  have hcode : (decAppend (wireFrame kind payload c) s).xCode ≠ xRxFull := by
    simp [decAppend_wireFrame_of_hasRoom hroom, xOk, xRxFull]
  rw [receiveFrame, if_neg hcode]

/-- R104 to R106: behind bytes without sync, an attempt on a whole wire frame returns it or drops its sync byte, and the checksum
decides. -/
theorem tryDecode_wireFrame {g payload : List Byte} (hg : syncByte ∉ g) (hfits : payload.length ≤ maxPayload)
    (kind c : Byte) (rest : List Byte) :
    tryDecode (g ++ (wireFrame kind payload c ++ rest)) =
      if xorfold (coveredBytes kind payload) = c then
        ⟨.frame, g.length + (payload.length + 5), some ⟨kind, BitVec.ofNat 16 payload.length, payload⟩⟩
      else ⟨.resync, g.length + 1, none⟩ := by
  have hlen := lenOf_lenLo_lenHi hfits
  have hfield : lenOf (lenLo payload.length) (lenHi payload.length) = BitVec.ofNat 16 payload.length :=
    BitVec.eq_of_toNat_eq (by rw [hlen, BitVec.toNat_ofNat, Nat.mod_eq_of_lt (by omega)])
  rw [wireFrame_eq, List.cons_append, tryDecode_sync hg (by simp; omega)]
  simp only [List.cons_append, List.append_assoc, List.nil_append]
  rw [attemptFrom_complete hlen.symm, hfield]
  rfl

/-- R107: an attempt that decides on no frame takes a frameless exit. -/
theorem framelessExit_of_none {s : State} {d : Nat} {e : Exit} (h : tryDecode s.buf = ⟨e, d, none⟩) :
    FramelessExit s (tryOnce s) (s.buf.drop d) (exitCode e) := by
  rw [tryOnce_of_none h]
  rfl

/-- Settles O44: the frame is taken behind the bytes without sync, and the attempt returns it and drops them all. -/
theorem arrivingFrameIsReturned : Obligations.ArrivingFrameIsReturned := by
  intro s kind c payload hfits hsync hroom row hrow hsum
  have hattempt := tryDecode_wireFrame hsync hfits row.2 c []
  rw [List.append_nil, if_pos hsum.symm] at hattempt
  rw [exec_of_mem_frameRows hrow, receiveFrame_wireFrame_of_hasRoom hroom, decAppend_wireFrame_of_hasRoom hroom,
    tryOnce_of_frame hattempt]
  simp [frameExit, exitCode, xOk, List.drop_append]

/-- Settles O45: the frame is taken behind the bytes without sync, and the attempt drops these and the sync byte. -/
theorem arrivingBadFrameIsRescanned : Obligations.ArrivingBadFrameIsRescanned := by
  intro s kind c payload hfits hsync hroom row hrow hsum
  have hattempt := tryDecode_wireFrame hsync hfits row.2 c []
  rw [List.append_nil, if_neg hsum.symm] at hattempt
  refine ⟨_, exec_of_mem_frameRows hrow s, ?_⟩
  rw [receiveFrame_wireFrame_of_hasRoom hroom, decAppend_wireFrame_of_hasRoom hroom]
  have hexit := framelessExit_of_none (s := { s with buf := s.buf ++ wireFrame row.2 payload c, xCode := xOk }) hattempt
  rwa [List.drop_length_add_append] at hexit

/-- R71, R96: a refused push is refused again, so DEC_APPEND's pushes may all be issued. -/
theorem runOps_decAppendOps (bs : List Byte) (s : State) : runOps (decAppendOps bs) s = .next (decAppend bs s) := by
  induction bs generalizing s with
  | nil => rfl
  | cons b bs ih =>
    have hpush : runOps (decAppendOps (b :: bs)) s = runOps (decAppendOps bs) (pushByte b s) := rfl
    rw [hpush, ih, decAppend]
    split
    next hfull =>
      have hrefused : pushByte b s = raise xRxFull s := if_pos hfull
      have hstill : bufFull (raise xRxFull s) = true := hfull
      rw [hrefused]
      cases bs with
      | nil => rfl
      | cons b' bs =>
        rw [decAppend, if_pos hstill]
        rfl
    · rfl

/-- Settles O47: the pushes are DEC_APPEND, and with room the row's attempt is made. -/
theorem arrivingFrameIsPushesAndOneTry : Obligations.ArrivingFrameIsPushesAndOneTry := by
  intro s kind c payload hroom row hrow
  rw [exec_of_mem_frameRows hrow, receiveFrame_wireFrame_of_hasRoom hroom, runOps_append, runOps_decAppendOps]
  rfl

end Sys2Proof.Proofs
end

section
/-! The checksum function: the parity of each bit, and that the order of the bytes does not matter (R77, R78). -/

namespace Sys2Proof.Proofs

open Sys2Proof Sys2Proof.Machine

/-- R77: appending a byte exclusive-ors it in. -/
theorem xorfold_concat (bs : List Byte) (b : Byte) : xorfold (bs ++ [b]) = xorfold bs ^^^ b := by
  simp [xorfold_append]

/-- R77: a byte flips the parity of bit `j` exactly when it has that bit set. -/
theorem xorfold_getLsbD (bs : List Byte) (j : Nat) :
    (xorfold bs).getLsbD j = decide (bs.countP (fun b => b.getLsbD j) % 2 = 1) := by
  induction bs with
  | nil => simp
  | cons b bs ih =>
    rw [xorfold_cons, BitVec.getLsbD_xor, ih, List.countP_cons]
    cases b.getLsbD j with
    | false => simp
    | true =>
      rw [Bool.true_xor, ← decide_not, decide_eq_decide, if_pos rfl]
      omega

/-- R78: the fold takes its bytes in any order. -/
theorem xorfold_perm {s t : List Byte} (hperm : s.Perm t) : xorfold s = xorfold t := by
  have hcomm (a b acc : Byte) : acc ^^^ a ^^^ b = acc ^^^ b ^^^ a := by
    rw [BitVec.xor_assoc, BitVec.xor_comm a b, ← BitVec.xor_assoc]
  exact hperm.foldl_eq' (fun a _ b _ acc => hcomm a b acc) 0x00#8

/-- R78: a byte folded twice cancels. -/
theorem xorfold_cons_cons_self (b : Byte) (s : List Byte) : xorfold (b :: b :: s) = xorfold s := by
  rw [xorfold_cons, xorfold_cons, ← BitVec.xor_assoc, BitVec.xor_self, BitVec.zero_xor]

/-- Settles O9: the parity by induction on the bytes. -/
theorem xorfoldIsBitwiseParity : Obligations.XorfoldIsBitwiseParity :=
  ⟨xorfold_nil, xorfold_concat, xorfold_getLsbD⟩

/-- Settles O10: exclusive or is associative, commutative and its own inverse. -/
theorem xorfoldIgnoresOrder : Obligations.XorfoldIgnoresOrder :=
  ⟨xorfold_append, fun _ _ => xorfold_perm, fun s b => xorfold_cons_cons_self b s⟩

end Sys2Proof.Proofs
end

section
/-! The checksum unit: CS_CLR and CS_FOLD alone (R79, R80), in a CS_SUM (R70), and among the operations of the other units
(R81). -/

namespace Sys2Proof.Proofs

open Sys2Proof Sys2Proof.Machine

theorem runOps_csClr_cons (is : List Instr) (s : State) :
    runOps (.csClr :: is) s = runOps is (complete { s with csAcc := 0x00#8 }) := rfl

/-- R14, R97: after CS_CLR an attempt does what it would have done, CS_ACC apart. -/
theorem tryOnce_of_csClr (s : State) :
    tryOnce (complete { s with csAcc := 0x00#8 }) = { tryOnce s with csAcc := 0x00#8 } := by
  have hunread := tryOnce_of_unread s 0x00#8 s.tx s.fValid s.dWhy xOk
  rw [← tryOnce_tx s] at hunread
  simpa [complete] using hunread

/-- Settles O7: ENC reads its operands alone and an attempt BUF alone, and both overwrite X_CODE. -/
theorem csClrClearsTheAccumulator : Obligations.CsClrClearsTheAccumulator := by
  refine ⟨fun rest => decodeEncodeRoundTrip .csClr rest rfl, exec_csClr, ?_⟩
  intro kind payload s i hi
  obtain rfl | rfl : i = .enc kind payload ∨ i = .decTry := by simpa using hi
  · refine ⟨_, _, exec_enc kind payload s, ?_, sameForTheHost_refl _⟩
    rw [runOps_csClr_cons, runOps_cons_of_next (exec_enc kind payload _)]
    rfl
  · refine ⟨_, _, exec_decTry s, ?_, sameForTheHost_refl _⟩
    rw [runOps_csClr_cons, runOps_cons_of_next (exec_decTry _), tryOnce_of_csClr]
    rfl

/-- Settles O8: the record's round trip and the operation's equation. -/
theorem csFoldFoldsOneByte : Obligations.CsFoldFoldsOneByte :=
  ⟨fun b rest => decodeEncodeRoundTrip (.csFold b) rest rfl, exec_csFold⟩

/-- R80: folding the bytes one by one exclusive-ors their checksum in. -/
theorem runOps_map_csFold (bs : List Byte) (s : State) (hok : s.xCode = xOk) :
    runOps (bs.map .csFold) s = .next { s with csAcc := s.csAcc ^^^ xorfold bs } := by
  induction bs generalizing s with
  | nil => simp [runOps]
  | cons b bs ih =>
    rw [List.map_cons, runOps_cons_of_next (exec_csFold b s), ih _ rfl, xorfold_cons, ← BitVec.xor_assoc]
    simp [complete, ← hok]

/-- Settles O11: the folds start from the cleared accumulator. -/
theorem csSumLeavesTheChecksum : Obligations.CsSumLeavesTheChecksum := by
  intro bs s
  rw [csSum, runOps_csClr_cons, runOps_map_csFold bs _ rfl, complete_csAcc, BitVec.zero_xor]
  rfl

theorem foldedBytes_cons (i : Instr) (is : List Instr) : foldedBytes (i :: is) = foldedBytes [i] ++ foldedBytes is :=
  List.filterMap_append (l := [i])

/-- Only a CS_FOLD folds a byte. -/
theorem foldedBytes_singleton_of_ne {i : Instr} (hfold : ∀ b, i ≠ .csFold b) : foldedBytes [i] = [] := by
  cases i with
  | csFold b => exact absurd rfl (hfold b)
  | _ => rfl

/-- R14, R80: an instruction other than CS_CLR and RESET exclusive-ors into CS_ACC the byte it folds, if it folds one. -/
theorem exec_csAcc_eq_xor {i : Instr} (s : State) (hclr : i ≠ .csClr) (hreset : i ≠ .reset) :
    ∃ t, exec i s = .next t ∧ t.csAcc = s.csAcc ^^^ xorfold (foldedBytes [i]) := by
  by_cases hfold : ∃ b, i = .csFold b
  · obtain ⟨b, rfl⟩ := hfold
    exact ⟨_, exec_csFold b s, by simp [foldedBytes]⟩
  · rw [not_exists] at hfold
    obtain ⟨t, hexec, hacc, _⟩ := exec_csAcc s hclr hreset hfold
    exact ⟨t, hexec, by simp [hacc, foldedBytes_singleton_of_ne hfold]⟩

/-- R81: the same of a sequence. -/
theorem runOps_csAcc {is : List Instr} (hother : ∀ i ∈ is, i ≠ .csClr ∧ i ≠ .reset) (s : State) :
    ∃ t, runOps is s = .next t ∧ t.csAcc = s.csAcc ^^^ xorfold (foldedBytes is) := by
  induction is generalizing s with
  | nil => exact ⟨s, rfl, by simp [foldedBytes]⟩
  | cons i is ih =>
    obtain ⟨⟨hclr, hreset⟩, hrest⟩ := List.forall_mem_cons.mp hother
    obtain ⟨m, hm, hmacc⟩ := exec_csAcc_eq_xor s hclr hreset
    obtain ⟨t, ht, htacc⟩ := ih hrest m
    refine ⟨t, (runOps_cons_of_next hm is).trans ht, ?_⟩
    rw [htacc, hmacc, foldedBytes_cons i is, xorfold_append, BitVec.xor_assoc]

/-- Settles O12: CS_CLR leaves 0, into which the bytes folded since are exclusive-ored. -/
theorem interleavedFoldsLeaveTheChecksum : Obligations.InterleavedFoldsLeaveTheChecksum := by
  intro is s hother
  obtain ⟨t, ht, hacc⟩ := runOps_csAcc hother (complete { s with csAcc := 0x00#8 })
  exact ⟨t, (runOps_csClr_cons is s).trans ht, by simpa using hacc⟩

end Sys2Proof.Proofs
end

section
/-! The encoder's frame: where ENC puts it, what it consists of, and how it reads back (R87, R88, R91, R92, R93). -/

namespace Sys2Proof.Proofs

open Sys2Proof Sys2Proof.Machine

/-- R87: a payload the length field can count is sent whole. -/
theorem exec_enc_of_fits {payload : List Byte} (hfits : payload.length ≤ maxPayload) (kind : Byte) (s : State) :
    exec (.enc kind payload) s = .next { s with tx := s.tx ++ encFrame kind payload, xCode := xOk } := by
  rw [exec_enc, emittedBy, if_pos hfits, if_pos hfits]

/-- R88: a longer payload is rejected with nothing sent. -/
theorem exec_enc_of_long {payload : List Byte} (hlong : maxPayload < payload.length) (kind : Byte) (s : State) :
    exec (.enc kind payload) s = .next { s with xCode := xEncTooLong } := by
  have hnofit : ¬ payload.length ≤ 65535 := Nat.not_le.mpr hlong
  rw [exec_enc, emittedBy, if_neg hnofit, if_neg hnofit, List.append_nil]

/-- R82, R87: the sync byte, then the covered bytes and their fold. -/
theorem encFrame_eq (kind : Byte) (payload : List Byte) :
    encFrame kind payload =
      syncByte :: (coveredBytes kind payload ++ [xorfold (coveredBytes kind payload)]) := by
  simp [encFrame, wireFrame, coveredBytes]

/-- R58: the length's low byte is bits 7 to 0 of the 16-bit field. -/
theorem extractLsb'_low_ofNat (n : Nat) : (BitVec.ofNat 16 n).extractLsb' 0 8 = lenLo n := by
  apply BitVec.eq_of_toNat_eq
  simp only [lenLo, BitVec.extractLsb'_toNat, BitVec.toNat_ofNat, Nat.shiftRight_zero]
  omega

/-- R58: the length's high byte is bits 15 to 8 of the 16-bit field. -/
theorem extractLsb'_high_ofNat (n : Nat) : (BitVec.ofNat 16 n).extractLsb' 8 8 = lenHi n := by
  apply BitVec.eq_of_toNat_eq
  simp only [lenHi, BitVec.extractLsb'_toNat, BitVec.toNat_ofNat, Nat.shiftRight_eq_div_pow]
  omega

/-- R91: with one payload, kind and checksum show in byte 1 and the last byte alone. -/
theorem wireFrame_getElem?_of_ne (kind kind' c c' : Byte) (payload : List Byte) {j : Nat} (hkind : j ≠ 1)
    (hsum : j ≠ payload.length + 4) : (wireFrame kind payload c)[j]? = (wireFrame kind' payload c')[j]? := by
  rw [wireFrame_eq, wireFrame_eq]
  match j with
  | 0 | 2 | 3 => rfl
  | 1 => exact absurd rfl hkind
  | k + 4 =>
    simp only [List.getElem?_cons_succ]
    rcases Nat.lt_or_ge k payload.length with hin | hout
    · rw [List.getElem?_append_left hin, List.getElem?_append_left hin]
    · rw [List.getElem?_eq_none (by simp; omega), List.getElem?_eq_none (by simp; omega)]

/-- R6: an empty buffer has room for any frame, whatever the configuration. -/
theorem hasRoom_of_le_maxFrame (c : Config) {k : Nat} (hk : k ≤ maxFrame) : c.bufCap.hasRoom 0 k = true := by
  have hadmissible := c.bufCapOk
  cases hcap : c.bufCap with
  | inf => rfl
  | finite n =>
    have hn : maxFrame ≤ n := by simpa [hcap, BufCap.admissible] using hadmissible
    simpa [BufCap.hasRoom] using hk.trans hn

/-- R73, R93: DECODE of an encoded frame ends at exit FRAME with that frame and nothing left. -/
theorem decodeBytes_encFrame {payload : List Byte} (hfits : payload.length ≤ maxPayload) (kind : Byte) (u : State) :
    decodeBytes (encFrame kind payload) u =
      frameExit (resetBlock u) [] kind (BitVec.ofNat 16 payload.length) payload := by
  have hroom : (resetBlock u).cfg.bufCap.hasRoom (resetBlock u).buf.length (payload.length + 5) = true :=
    hasRoom_of_le_maxFrame u.cfg (Nat.add_le_add_right hfits 5)
  have hattempt := tryDecode_wireFrame List.not_mem_nil hfits kind (xorfold (coveredBytes kind payload)) []
  rw [List.append_nil, if_pos rfl] at hattempt
  rw [decodeBytes, encFrame, decAppend_wireFrame_of_hasRoom hroom, tryOnce_of_frame hattempt]
  simp [frameExit, exitCode, xOk]

/-- Settles O18: ENC sends its frame, and DECODE of that frame ends at exit FRAME. -/
theorem encodedFrameDecodesBack : Obligations.EncodedFrameDecodesBack := by
  intro kind payload s u hfits
  refine ⟨encFrame kind payload, exec_enc_of_fits hfits kind s, ?_⟩
  rw [decodeBytes_encFrame hfits]
  exact ⟨rfl, rfl, rfl⟩

/-- Settles O13: the covered bytes are the body, its length bytes being the slices of the 16-bit length. -/
theorem encAppendsTheWholeFrame : Obligations.EncAppendsTheWholeFrame := by
  intro kind payload s hfits
  dsimp only
  rw [exec_enc_of_fits hfits, encFrame_eq, extractLsb'_low_ofNat, extractLsb'_high_ofNat]
  rfl

/-- Settles O14: ENC's length test fails. -/
theorem encRejectsALongPayload : Obligations.EncRejectsALongPayload :=
  fun kind _ s hlong => exec_enc_of_long hlong kind s

/-- Settles O15: the length bytes read back as the length, and the covered bytes with their fold leave residue zero. -/
theorem encodedFrameHasItsLength : Obligations.EncodedFrameHasItsLength := by
  intro kind payload s hfits
  have hlength : (lenLo payload.length).toNat + 256 * (lenHi payload.length).toNat = payload.length :=
    (lenOf_toNat _ _).symm.trans (lenOf_lenLo_lenHi hfits)
  have hresidue : xorfold ((encFrame kind payload).drop 1) = 0x00#8 := by
    rw [encFrame_eq]
    exact xorfold_append_self _
  exact ⟨_, _, _, exec_enc_of_fits hfits kind s, wireFrame_length _ _ _, rfl, rfl, rfl, hlength, hresidue⟩

/-- Settles O16: both frames are wire frames of one payload. -/
theorem encTreatsEveryKindAlike : Obligations.EncTreatsEveryKindAlike := by
  intro kind kind' payload s hfits
  have hlength : (encFrame kind payload).length = (encFrame kind' payload).length :=
    (wireFrame_length _ _ _).trans (wireFrame_length _ _ _).symm
  exact ⟨_, _, exec_enc_of_fits hfits kind s, exec_enc_of_fits hfits kind' s, hlength, rfl, rfl,
    fun _ => wireFrame_getElem?_of_ne kind kind' _ _ payload⟩

end Sys2Proof.Proofs
end

section
/-! The byte-serial packer of R94: a payload that is too long ends it at the test, any other is sent byte by byte. -/

namespace Sys2Proof.Proofs

open Sys2Proof Sys2Proof.Machine

theorem packRun_of_done (k : Nat) {p : Pack} (hdone : p.phase = .done) : packRun k p = p := by
  induction k with
  | zero => rfl
  | succ k ih =>
    have hstep : packStep p = p := by simp [packStep, hdone]
    rw [packRun, hstep, ih]

/-- R94: from phase PAYLOAD the packer sends and folds the bytes left, then sends the fold. -/
theorem packRun_payload (kind : Byte) (n : Nat) (bs : List Byte) (acc : Byte) (sent : List Byte) (code : BitVec 2) :
    packRun (bs.length + 2) ⟨.payload, kind, n, bs, acc, sent, code⟩ =
      ⟨.done, kind, n, [], acc ^^^ xorfold bs, sent ++ bs ++ [acc ^^^ xorfold bs], code⟩ := by
  induction bs generalizing acc sent with
  | nil => simp [packRun, packStep]
  | cons b bs ih =>
    have hstep : packRun ((b :: bs).length + 2) ⟨.payload, kind, n, b :: bs, acc, sent, code⟩ =
        packRun (bs.length + 2) ⟨.payload, kind, n, bs, acc ^^^ b, sent ++ [b], code⟩ := rfl
    rw [hstep, ih, xorfold_cons, BitVec.xor_assoc, List.append_assoc sent]
    rfl

/-- R88, R94: the packer sends nothing of a payload that is too long. -/
theorem packRun_packStart_of_long {payload : List Byte} (hlong : maxPayload < payload.length) (kind : Byte) :
    packRun (payload.length + 7) (packStart kind payload) =
      { packStart kind payload with phase := .done, code := xEncTooLong } := by
  have hcheck : packStep (packStart kind payload) =
      { packStart kind payload with phase := .done, code := xEncTooLong } := if_pos hlong
  rw [packRun, hcheck, packRun_of_done _ rfl]

/-- R87, R94: the packer sends ENC's frame, its accumulator ending at the covered bytes' fold. -/
theorem packRun_packStart_of_fits {payload : List Byte} (hfits : payload.length ≤ maxPayload) (kind : Byte) :
    packRun (payload.length + 7) (packStart kind payload) =
      ⟨.done, kind, payload.length, [], xorfold (coveredBytes kind payload), encFrame kind payload, xOk⟩ := by
  have hcheck : packStep (packStart kind payload) = { packStart kind payload with phase := .sync } :=
    if_neg (Nat.not_lt.mpr hfits)
  have hheader : packRun (payload.length + 6) { packStart kind payload with phase := .sync } =
      packRun (payload.length + 2) ⟨.payload, kind, payload.length, payload,
        0x00#8 ^^^ kind ^^^ lenLo payload.length ^^^ lenHi payload.length,
        [syncByte, kind, lenLo payload.length, lenHi payload.length], xOk⟩ := rfl
  have hfold : 0x00#8 ^^^ kind ^^^ lenLo payload.length ^^^ lenHi payload.length ^^^ xorfold payload =
      xorfold (coveredBytes kind payload) := by
    rw [coveredBytes, xorfold_append]
    rfl
  rw [packRun, hcheck, hheader, packRun_payload, hfold]
  rfl

/-- Settles O17: the packer ends on both sides of the length test, with ENC's bytes and code. -/
theorem packerRefinesEnc : Obligations.PackerRefinesEnc := by
  intro kind payload s
  rcases Nat.lt_or_ge maxPayload payload.length with hlong | hfits
  · rw [packRun_packStart_of_long hlong, exec_enc_of_long hlong]
    simp [packStart]
  · rw [packRun_packStart_of_fits hfits]
    exact ⟨rfl, exec_enc_of_fits hfits kind s⟩

end Sys2Proof.Proofs
end

section
/-! ENC among the operations of the other units (R90): they neither read what ENC writes nor leave its code. -/

namespace Sys2Proof.Proofs

open Sys2Proof Sys2Proof.Machine

/-- R12: these operations of the other units overwrite X_CODE without reading it. -/
theorem exec_of_xCode {b : Byte} {i : Instr} (hi : i ∈ [Instr.decPush b, .decTry, .csFold b, .csClr]) (s : State)
    (x : BitVec 2) : exec i { s with xCode := x } = exec i s := by
  simp only [List.mem_cons, List.not_mem_nil, or_false] at hi
  obtain rfl | rfl | rfl | rfl := hi
  · rw [exec_decPush, exec_decPush, pushByte_of_xCode]
  · have htry : tryOnce { s with xCode := x } = tryOnce s :=
      calc tryOnce { s with xCode := x }
        _ = { tryOnce s with csAcc := s.csAcc, tx := s.tx } := tryOnce_of_unread s s.csAcc s.tx s.fValid s.dWhy x
        _ = tryOnce s := by rw [← tryOnce_csAcc s, ← tryOnce_tx s]
    rw [exec_decTry, exec_decTry, htry]
  · rfl
  · rfl

theorem emittedBy_of_otherUnit {b : Byte} {i : Instr} (hi : i ∈ [Instr.decPush b, .decTry, .csFold b, .csClr]) :
    emittedBy i = [] := by
  simp only [List.mem_cons, List.not_mem_nil, or_false] at hi
  obtain rfl | rfl | rfl | rfl := hi <;> rfl

/-- Settles O54: the other operation runs alike whatever TX and X_CODE hold, and ENC appends the same bytes after it. -/
theorem encCommutesWithTheOtherUnits : Obligations.EncCommutesWithTheOtherUnits := by
  refine ⟨fun kind payload => ⟨_, _, exec_enc kind payload⟩, fun kind b payload s i hi => ?_⟩
  obtain ⟨t, hexec, htx, hany⟩ := exec_tx i s
  simp only [emittedBy_of_otherUnit hi, List.append_nil] at htx hany
  have hencFirst : runOps [.enc kind payload, i] s = .next { t with tx := s.tx ++ emittedBy (.enc kind payload) } := by
    rw [runOps_cons_of_next (exec_enc kind payload s)]
    refine runOps_cons_of_next ?_ []
    exact (exec_of_xCode hi { s with tx := s.tx ++ emittedBy (.enc kind payload) } _).trans (hany _)
  have hencLast := (runOps_cons_of_next hexec [.enc kind payload]).trans
    (runOps_cons_of_next (exec_enc kind payload t) [])
  refine ⟨_, _, hencFirst, hencLast, ?_⟩
  rw [htx]
  exact sameForTheHost_refl _

end Sys2Proof.Proofs
end

section
/-! What one decode attempt decides, exit by exit, on a buffer taken apart at its first sync (R98 to R106). -/

namespace Sys2Proof.Proofs

open Sys2Proof Sys2Proof.Machine

/-- R100: the first sync stands behind the bytes that are none. -/
theorem firstSync_append_cons {g : List Byte} (hg : syncByte ∉ g) (S : List Byte) :
    firstSync (g ++ syncByte :: S) = some g.length :=
  firstSync_eq_some.mpr ⟨g, S, rfl, hg, rfl⟩

/-- R101: exit SHORT_SYNC. -/
theorem tryDecode_shortSync {g S : List Byte} (hg : syncByte ∉ g) (hlen : 5 ≤ (g ++ syncByte :: S).length)
    (hshort : S.length < 4) : tryDecode (g ++ syncByte :: S) = ⟨.shortSync, g.length, none⟩ := by
  rw [tryDecode_sync hg hlen, attemptFrom_short (S := syncByte :: S) (Nat.succ_lt_succ hshort)]

/-- R103: exit INCOMPLETE. -/
theorem tryDecode_incomplete {g body : List Byte} {kind lo hi : Byte} (hg : syncByte ∉ g) (hbody : 1 ≤ body.length)
    (hmissing : body.length < (lenOf lo hi).toNat + 1) :
    tryDecode (g ++ syncByte :: kind :: lo :: hi :: body) = ⟨.incomplete, g.length, none⟩ := by
  rw [tryDecode_sync hg (by simp; omega), attemptFrom_incomplete hbody hmissing]

/-- R104: all of the candidate is there, and the checksum decides. -/
theorem tryDecode_complete {g payload : List Byte} {kind lo hi : Byte} (hg : syncByte ∉ g)
    (hlen : payload.length = (lenOf lo hi).toNat) (c : Byte) (rest : List Byte) :
    tryDecode (g ++ syncByte :: kind :: lo :: hi :: (payload ++ c :: rest)) =
      if xorfold (kind :: lo :: hi :: payload) = c then
        ⟨.frame, g.length + (payload.length + 5), some ⟨kind, lenOf lo hi, payload⟩⟩
      else ⟨.resync, g.length + 1, none⟩ := by
  rw [tryDecode_sync hg (by simp; omega), attemptFrom_complete hlen]

/-- R108: a statement about every attempt has one case for each exit; `tryDecode_cases` as a rule for `induction`. -/
theorem attempt_cases {motive : List Byte → Prop}
    (short : ∀ B, B.length < 5 → tryDecode B = ⟨.short, 0, none⟩ → motive B)
    (noSync : ∀ B, 5 ≤ B.length → syncByte ∉ B → tryDecode B = ⟨.noSync, B.length, none⟩ → motive B)
    (shortSync : ∀ g S, syncByte ∉ g → 5 ≤ (g ++ syncByte :: S).length → S.length < 4 →
      tryDecode (g ++ syncByte :: S) = ⟨.shortSync, g.length, none⟩ → motive (g ++ syncByte :: S))
    (incomplete : ∀ g kind lo hi body, syncByte ∉ g → 1 ≤ body.length → body.length < (lenOf lo hi).toNat + 1 →
      tryDecode (g ++ syncByte :: kind :: lo :: hi :: body) = ⟨.incomplete, g.length, none⟩ →
      motive (g ++ syncByte :: kind :: lo :: hi :: body))
    (frame : ∀ g kind lo hi payload c rest, syncByte ∉ g → payload.length = (lenOf lo hi).toNat →
      xorfold (kind :: lo :: hi :: payload) = c →
      tryDecode (g ++ syncByte :: kind :: lo :: hi :: (payload ++ c :: rest)) =
        ⟨.frame, g.length + (payload.length + 5), some ⟨kind, lenOf lo hi, payload⟩⟩ →
      motive (g ++ syncByte :: kind :: lo :: hi :: (payload ++ c :: rest)))
    (resync : ∀ g kind lo hi payload c rest, syncByte ∉ g → payload.length = (lenOf lo hi).toNat →
      xorfold (kind :: lo :: hi :: payload) ≠ c →
      tryDecode (g ++ syncByte :: kind :: lo :: hi :: (payload ++ c :: rest)) = ⟨.resync, g.length + 1, none⟩ →
      motive (g ++ syncByte :: kind :: lo :: hi :: (payload ++ c :: rest)))
    (B : List Byte) : motive B := by
  obtain ⟨hlen, htry⟩ | ⟨hlen, hs, htry⟩ | ⟨g, S, rfl, hg, hlen, hS, htry⟩ |
    ⟨g, kind, lo, hi, body, rfl, hg, hb, hm, htry⟩ |
    ⟨g, kind, lo, hi, payload, c, rest, rfl, hg, hp, hx, htry⟩ |
    ⟨g, kind, lo, hi, payload, c, rest, rfl, hg, hp, hx, htry⟩ := tryDecode_cases B
  · exact short B hlen htry
  · exact noSync B hlen hs htry
  · exact shortSync g S hg hlen hS htry
  · exact incomplete g kind lo hi body hg hb hm htry
  · exact frame g kind lo hi payload c rest hg hp hx htry
  · exact resync g kind lo hi payload c rest hg hp hx htry

/-- R58: the length field counts the payload. -/
theorem lenOf_eq_ofNat {lo hi : Byte} {n : Nat} (hn : n = lo.toNat + 256 * hi.toNat) : lenOf lo hi = BitVec.ofNat 16 n := by
  rw [hn, ← lenOf_toNat, BitVec.ofNat_toNat, BitVec.setWidth_eq]

/-- R34: after an attempt the host reads the frame it returned, if it returned one. -/
theorem readFrame_tryOnce (s : State) :
    readFrame (tryOnce s) = (tryDecode s.buf).frame.elim (.error .frameReadWhileInvalid) .ok := by
  cases hframe : (tryDecode s.buf).frame with
  | none => simp [readFrame, hframe]
  | some f =>
    rw [tryOnce_of_frame (s := s) (f := f) (by rw [← hframe])]
    rfl

end Sys2Proof.Proofs
end

section
/-! A push and its room (R96), DEC_APPEND (R71), and a frame that arrives without room. -/

namespace Sys2Proof.Proofs

open Sys2Proof Sys2Proof.Machine

/-- R24: BUF is full where it holds BUF_CAP bytes, and never where BUF_CAP is INF. -/
theorem bufFull_eq_true_iff {s : State} : bufFull s = true ↔ s.cfg.bufCap = .finite s.buf.length := by
  cases hcap : s.cfg.bufCap with
  | finite c => simp [bufFull, blen, hcap, eq_comm]
  | inf => simp [bufFull, hcap]

/-- R96: a push where BUF is not full. -/
theorem pushByte_of_not_full {s : State} (hroom : s.cfg.bufCap ≠ .finite s.buf.length) (b : Byte) :
    pushByte b s = { s with buf := s.buf ++ [b], xCode := xOk } :=
  if_neg (bufFull_eq_true_iff.not.mpr hroom)

/-- R96: a push where BUF is full. -/
theorem pushByte_of_full {s : State} (hfull : s.cfg.bufCap = .finite s.buf.length) (b : Byte) :
    pushByte b s = { s with xCode := xRxFull } :=
  if_pos (bufFull_eq_true_iff.mpr hfull)

/-- R41: room for the bytes that fill the buffer so far is room for fewer. -/
theorem hasRoom_of_le {cap : BufCap} {n k m j : Nat} (hroom : cap.hasRoom n k = true) (hle : m + j ≤ n + k) :
    cap.hasRoom m j = true := by
  cases cap with
  | inf => rfl
  | finite c => exact decide_eq_true (hle.trans (of_decide_eq_true hroom))

/-- Settles O20: the record's round trip, and the two sides of the test for a full buffer. -/
theorem pushAppendsOrIsRefused : Obligations.PushAppendsOrIsRefused :=
  ⟨fun b rest => decodeEncodeRoundTrip (.decPush b) rest rfl,
    fun b _ hroom => congrArg Host.Outcome.next (pushByte_of_not_full hroom b),
    fun b _ hfull => congrArg Host.Outcome.next (pushByte_of_full hfull b)⟩

/-- Settles O21: the pushes come to DEC_APPEND, whose effect depends on the room. -/
theorem appendStopsAtARefusedPush : Obligations.AppendStopsAtARefusedPush := by
  refine ⟨fun bs s hroom => ⟨runOps_decAppendOps bs s, ?_⟩, fun bs s c hcap hle hlong => decAppend_of_full hcap hle hlong⟩
  by_cases hne : bs = []
  · simp [hne, decAppend]
  · rw [if_neg hne, decAppend_of_hasRoom hne hroom]
    rfl

/-- Settles O46: DEC_APPEND ends in the refusal, so no attempt is made. -/
theorem arrivingFrameIsCutByAFullBuffer : Obligations.ArrivingFrameIsCutByAFullBuffer := by
  intro s kind k payload c hcap hle hlong row hrow
  have hcut := decAppend_of_full (bs := wireFrame row.2 payload k) hcap hle (by simpa using hlong)
  rw [exec_of_mem_frameRows hrow, receiveFrame, hcut, if_pos rfl]
  rfl

end Sys2Proof.Proofs
end

section
/-! Attempts that wait: they drop nothing and can be made again (R98, R101, R103), so a frame may arrive byte by byte (R117). -/

namespace Sys2Proof.Proofs

open Sys2Proof Sys2Proof.Machine

/-- R107: an attempt that decides on no frame, as an operation. -/
theorem exec_decTry_of_none {s : State} {d : Nat} {e : Exit} (h : tryDecode s.buf = ⟨e, d, none⟩) :
    ∃ t, exec .decTry s = .next t ∧ FramelessExit s t (s.buf.drop d) (exitCode e) :=
  ⟨_, exec_decTry s, framelessExit_of_none h⟩

/-- R31: of two frameless exits in a row the second stands. -/
theorem framelessExit_trans {s t u : State} {B C : List Byte} {v w : BitVec 3} (hfirst : FramelessExit s t B v)
    (hsecond : FramelessExit t u C w) : FramelessExit s u C w := by
  unfold FramelessExit at *
  rw [hsecond, hfirst]

/-- R103, R111: an attempt whose exit would be taken again, with nothing dropped, may be made any number of times. -/
theorem runOps_replicate_decTry {s : State} {e : Exit} {d : Nat} (htry : tryDecode s.buf = ⟨e, d, none⟩)
    (hagain : tryDecode (s.buf.drop d) = ⟨e, 0, none⟩) (k : Nat) :
    ∃ u, runOps (List.replicate (k + 1) .decTry) s = .next u ∧ FramelessExit s u (s.buf.drop d) (exitCode e) := by
  have hfirst := framelessExit_of_none htry
  induction k generalizing s d with
  | zero => exact ⟨_, rfl, hfirst⟩
  | succ k ih =>
    have hbuf : (tryOnce s).buf = s.buf.drop d := by rw [tryOnce_buf, htry]
    have hnext : tryDecode (tryOnce s).buf = ⟨e, 0, none⟩ := by rw [hbuf, hagain]
    obtain ⟨u, hrun, hexit⟩ := ih hnext hnext (framelessExit_of_none hnext)
    rw [hbuf] at hexit
    exact ⟨u, hrun, framelessExit_trans hfirst hexit⟩

/-- R111: attempts that would drop nothing leave BUF and the parameters as they were. -/
theorem runOps_replicate_decTry_keeps {s : State} (hwait : (tryDecode s.buf).dropped = 0) (n : Nat) :
    ∃ t, runOps (List.replicate n .decTry) s = .next t ∧ t.cfg = s.cfg ∧ t.buf = s.buf := by
  induction n generalizing s with
  | zero => exact ⟨s, rfl, rfl, rfl⟩
  | succ n ih =>
    have hbuf : (tryOnce s).buf = s.buf := by simp [hwait]
    obtain ⟨t, hrun, hcfg, hkeep⟩ := ih (s := tryOnce s) (by rw [hbuf, hwait])
    exact ⟨t, hrun, by rw [hcfg, tryOnce_cfg], by rw [hkeep, hbuf]⟩

/-- R49: a sequence after another that ends in `t`. -/
theorem runOps_append_of_next {is : List Instr} {s t : State} (hrun : runOps is s = .next t) (js : List Instr) :
    runOps (is ++ js) s = runOps js t := by
  rw [runOps_append, hrun]

/-- R117: bytes pushed with attempts between them accumulate where no attempt would drop any. -/
theorem runOps_fragments {bs : List Byte} {tries : List Nat} {s : State} (htries : bs.length ≤ tries.length)
    (hroom : s.cfg.bufCap.hasRoom s.buf.length bs.length = true)
    (hwait : ∀ n < bs.length, (tryDecode (s.buf ++ bs.take (n + 1))).dropped = 0) :
    ∃ t, runOps (fragments bs tries) s = .next t ∧ t.cfg = s.cfg ∧ t.buf = s.buf ++ bs := by
  induction bs generalizing tries s with
  | nil => exact ⟨s, rfl, rfl, (List.append_nil _).symm⟩
  | cons b bs ih =>
    obtain _ | ⟨n, tries⟩ := tries
    · simp at htries
    have hpush := pushByte_of_hasRoom (b := b) hroom
    have hfirst : (tryDecode (pushByte b s).buf).dropped = 0 := by
      rw [hpush]
      exact hwait 0 (Nat.succ_pos _)
    obtain ⟨m, hm, hmcfg, hmbuf⟩ := runOps_replicate_decTry_keeps hfirst n
    have hmbuf' : m.buf = s.buf ++ [b] := by rw [hmbuf, hpush]
    have hmcfg' : m.cfg = s.cfg := by rw [hmcfg, pushByte_cfg]
    obtain ⟨t, ht, htcfg, htbuf⟩ := ih (tries := tries) (s := m) (Nat.le_of_succ_le_succ htries)
      (by rw [hmcfg', hmbuf']; exact hasRoom_of_le hroom (by simp; omega))
      (fun j hj => by
        rw [hmbuf', List.append_assoc]
        exact hwait (j + 1) (Nat.succ_lt_succ hj))
    refine ⟨t, ?_, by rw [htcfg, hmcfg'], by rw [htbuf, hmbuf', List.append_assoc]; rfl⟩
    have hsplit : runOps (fragments (b :: bs) (n :: tries)) s =
        runOps (List.replicate n .decTry ++ fragments bs tries) (pushByte b s) := rfl
    rw [hsplit, runOps_append_of_next hm, ht]

/-- R98, R103: an attempt on the first bytes of a wire frame, without its last, waits. -/
theorem tryDecode_take_wireFrame {payload : List Byte} (hfits : payload.length ≤ maxPayload) (kind c : Byte) {k : Nat}
    (hk : k < payload.length + 5) :
    tryDecode ((wireFrame kind payload c).take k) = ⟨if k < 5 then .short else .incomplete, 0, none⟩ := by
  have hlen : ((wireFrame kind payload c).take k).length = k := by simp; omega
  split
  next hshort => exact tryDecode_short (hlen.trans_lt hshort)
  next hheader =>
    obtain ⟨m, rfl⟩ : ∃ m, k = m + 5 := ⟨k - 5, by omega⟩
    have hbody : ((payload ++ [c]).take (m + 1)).length = m + 1 := by simp; omega
    rw [wireFrame_eq]
    refine tryDecode_incomplete (g := []) List.not_mem_nil ?_ ?_
    · rw [hbody]
      exact Nat.le_add_left 1 m
    · rw [hbody, lenOf_lenLo_lenHi hfits]
      omega

/-- R117: after the pushes of a frame's first bytes, whatever attempts were made between them, BUF holds these bytes. -/
theorem runOps_fragments_take_encFrame {payload : List Byte} (hfits : payload.length ≤ maxPayload) (kind : Byte) {s : State}
    (hempty : s.buf = []) {tries : List Nat} (htries : tries.length = payload.length + 5) {k : Nat}
    (hk : k < payload.length + 5) :
    ∃ t, runOps (fragments ((encFrame kind payload).take k) tries) s = .next t ∧ t.cfg = s.cfg ∧
      t.buf = (encFrame kind payload).take k := by
  have hlen : ((encFrame kind payload).take k).length = k := by simp [encFrame]; omega
  have hwait : ∀ n < ((encFrame kind payload).take k).length,
      (tryDecode (s.buf ++ ((encFrame kind payload).take k).take (n + 1))).dropped = 0 := by
    intro n hn
    rw [hlen] at hn
    rw [hempty, List.nil_append, List.take_take, Nat.min_eq_left hn, encFrame, tryDecode_take_wireFrame hfits kind _ (by omega)]
  have hroom : s.cfg.bufCap.hasRoom s.buf.length ((encFrame kind payload).take k).length = true := by
    rw [hempty, hlen]
    exact hasRoom_of_le_maxFrame s.cfg (hk.le.trans (Nat.add_le_add_right hfits 5))
  obtain ⟨t, hrun, hcfg, hbuf⟩ := runOps_fragments (tries := tries) (by omega) hroom hwait
  exact ⟨t, hrun, hcfg, by rw [hbuf, hempty, List.nil_append]⟩

/-- R105, R118: an attempt on an encoded frame behind bytes without sync returns it, and keeps what follows it. -/
theorem tryOnce_encFrame {s : State} {g payload r : List Byte} {kind : Byte} (hg : syncByte ∉ g)
    (hfits : payload.length ≤ maxPayload) (hbuf : s.buf = g ++ (encFrame kind payload ++ r)) :
    tryOnce s = frameExit s r kind (BitVec.ofNat 16 payload.length) payload := by
  have hattempt := tryDecode_wireFrame hg hfits kind (xorfold (coveredBytes kind payload)) r
  rw [if_pos rfl, ← encFrame, ← hbuf] at hattempt
  have hrest : s.buf.drop (g.length + (payload.length + 5)) = r := by
    rw [hbuf, List.drop_length_add_append]
    exact List.drop_left' (wireFrame_length _ _ _)
  rw [tryOnce_of_frame hattempt, hrest]
  rfl

/-- Settles O36: the frame's bytes accumulate, the attempts on fewer than all of them waiting, and the last byte makes the frame
whole. -/
theorem fragmentedFrameIsReturnedOnce : Obligations.FragmentedFrameIsReturnedOnce := by
  intro s kind payload tries hfits hempty htries
  constructor
  · intro k hk
    obtain ⟨m, hrun, _, hbuf⟩ := runOps_fragments_take_encFrame hfits kind hempty htries hk
    have hattempt : tryDecode m.buf = ⟨if k < 5 then .short else .incomplete, 0, none⟩ := by
      rw [hbuf]
      exact tryDecode_take_wireFrame hfits kind _ hk
    refine ⟨tryOnce m, runOps_append_of_next hrun [.decTry], ?_, ?_, ?_⟩
    · simp [hattempt]
    · rw [tryOnce_buf, hattempt, ← hbuf]
      rfl
    · rw [tryOnce_dWhy, hattempt]
      split <;> rfl
  · obtain ⟨m, hrun, hcfg, hbuf⟩ :=
      runOps_fragments_take_encFrame hfits kind hempty htries (k := payload.length + 4) (by omega)
    have hwhole : (encFrame kind payload).take (payload.length + 4) ++ [xorfold (coveredBytes kind payload)] =
        encFrame kind payload := by
      simp [encFrame, wireFrame_eq]
    have hmlen : m.buf.length = payload.length + 4 := by
      rw [hbuf]
      simp [encFrame]
    have hroom : m.cfg.bufCap.hasRoom m.buf.length (0 + 1) = true :=
      hasRoom_of_le (hasRoom_of_le_maxFrame m.cfg (Nat.add_le_add_right hfits 5)) (by omega)
    have hpush := pushByte_of_hasRoom (b := xorfold (coveredBytes kind payload)) hroom
    rw [hbuf, hwhole] at hpush
    have htry := tryOnce_encFrame (s := pushByte (xorfold (coveredBytes kind payload)) m) (g := []) (r := [])
      List.not_mem_nil hfits (by rw [hpush, List.nil_append, List.append_nil])
    refine ⟨_, (runOps_append_of_next hrun _).trans (congrArg Host.Outcome.next htry), rfl, rfl, rfl⟩

end Sys2Proof.Proofs
end

section
/-! DEC_TRY exit by exit (R98 to R106): each buffer's attempt, written to the registers. -/

namespace Sys2Proof.Proofs

open Sys2Proof Sys2Proof.Machine

/-- Settles O22: the attempt on such a buffer is SHORT. -/
theorem tryKeepsAShortBuffer : Obligations.TryKeepsAShortBuffer :=
  fun _ hlen => exec_decTry_of_none (tryDecode_short hlen)

/-- Settles O23: all of the buffer is dropped. -/
theorem tryEmptiesABufferWithoutSync : Obligations.TryEmptiesABufferWithoutSync := by
  intro s hlen hsync
  have hexit := exec_decTry_of_none (tryDecode_noSync hlen hsync)
  rwa [List.drop_length] at hexit

/-- Settles O24: the bytes before the sync are dropped, and there are some since BLEN is 5 or more. -/
theorem tryKeepsAShortCandidate : Obligations.TryKeepsAShortCandidate := by
  intro s g S hbuf hg hlen hshort
  rw [hbuf] at hlen
  refine ⟨by simp only [List.length_append, List.length_cons] at hlen hshort; omega, ?_⟩
  have hattempt := tryDecode_shortSync hg hlen (Nat.lt_of_succ_lt_succ hshort)
  rw [← hbuf] at hattempt
  have hexit := exec_decTry_of_none hattempt
  rwa [hbuf, List.drop_left] at hexit

/-- Settles O25: the candidate that is left is waited for again, with nothing to drop before it. -/
theorem tryWaitsForAnIncompleteCandidate : Obligations.TryWaitsForAnIncompleteCandidate := by
  intro s g body kind lo hi hbuf hg hbody hmissing
  have hmissing' : body.length < (lenOf lo hi).toNat + 1 := by rw [lenOf_toNat]; omega
  have hattempt := tryDecode_incomplete hg hbody hmissing' (kind := kind)
  have hagain := tryDecode_incomplete List.not_mem_nil hbody hmissing' (kind := kind)
  rw [← hbuf] at hattempt
  have hrest : s.buf.drop g.length = syncByte :: kind :: lo :: hi :: body := by rw [hbuf, List.drop_left]
  have hexits := runOps_replicate_decTry hattempt (by rw [hrest]; exact hagain)
  rw [hrest] at hexits
  exact ⟨hexits 0, hexits⟩

/-- Settles O26: the candidate is whole and its checksum matches. -/
theorem tryReturnsAValidFrame : Obligations.TryReturnsAValidFrame := by
  intro s g payload rest kind lo hi c hbuf hg hlen hsum
  have hattempt := tryDecode_complete hg (hlen.trans (lenOf_toNat lo hi).symm) (kind := kind) c rest
  rw [if_pos hsum, ← hbuf, lenOf_eq_ofNat hlen] at hattempt
  have hrest : s.buf.drop (g.length + (payload.length + 5)) = rest := by
    rw [hbuf, List.drop_length_add_append]
    simp
  rw [exec_decTry, tryOnce_of_frame hattempt, hrest]
  rfl

/-- Settles O27: the candidate is whole and its checksum does not match. -/
theorem tryDropsOneByteOnMismatch : Obligations.TryDropsOneByteOnMismatch := by
  intro s g payload rest kind lo hi c hbuf hg hlen hsum
  have hattempt := tryDecode_complete hg (hlen.trans (lenOf_toNat lo hi).symm) (kind := kind) c rest
  rw [if_neg hsum, ← hbuf] at hattempt
  have hexit := exec_decTry_of_none hattempt
  rwa [hbuf, List.drop_length_add_append] at hexit

/-- R83: a checksum byte completes the bytes it covers to residue zero exactly when it is their fold. -/
theorem xorfold_concat_eq_zero_iff {bs : List Byte} {c : Byte} : xorfold (bs ++ [c]) = 0x00#8 ↔ xorfold bs = c := by
  rw [xorfold_concat, BitVec.xor_eq_zero_iff]

/-- Settles O40: the checksum comparison decides whether there is a frame. -/
theorem zeroResidueDecidesValidity : Obligations.ZeroResidueDecidesValidity := by
  intro s payload rest kind lo hi c hbuf hlen
  have hattempt := tryDecode_complete List.not_mem_nil (hlen.trans (lenOf_toNat lo hi).symm) (kind := kind) c rest
  rw [List.nil_append, ← hbuf] at hattempt
  refine ⟨_, exec_decTry s, ?_⟩
  rw [tryOnce_fValid, hattempt, xorfold_concat_eq_zero_iff]
  split
  next hsum => exact iff_of_true rfl hsum
  next hsum => exact iff_of_false Bool.false_ne_true hsum

/-- Settles O33: the frame is the first candidate, and whole. -/
theorem garbageWithoutSyncIsHarmless : Obligations.GarbageWithoutSyncIsHarmless := by
  intro s g payload r kind hfits hg hbuf
  rw [exec_decTry, tryOnce_encFrame hg hfits (by rw [hbuf, List.append_assoc])]

/-- Settles O32: the attempt is a function of BUF, and what the host reads a function of the attempt. -/
theorem tryDependsOnTheBufferAlone : Obligations.TryDependsOnTheBufferAlone := by
  intro s s' hbuf
  refine ⟨_, _, exec_decTry s, exec_decTry s', ?_⟩
  simp only [tryOnce_buf, tryOnce_fValid, tryOnce_dWhy, tryOnce_xCode, readFrame_tryOnce, hbuf, and_self]

end Sys2Proof.Proofs
end

section
/-! What an exit says of the bytes dropped, of the bytes left and of the next attempt (R110 to R112, R174). -/

namespace Sys2Proof.Proofs

open Sys2Proof Sys2Proof.Machine

/-- Settles O29: the bytes each exit drops, counted from the first sync. -/
theorem tryOnlyDropsFromTheHead : Obligations.TryOnlyDropsFromTheHead := by
  intro s
  refine ⟨_, _, exec_decTry s, tryDecode_dropped_le s.buf, tryOnce_buf s, ?_⟩
  rw [tryOnce_dWhy]
  induction s.buf using attempt_cases with
  | short B _ htry => simp [htry, exitCode]
  | noSync B hlen _ htry => simpa [htry, exitCode] using hlen
  | shortSync g S _ hlen hS htry =>
    have hgarbage : 1 ≤ g.length := by
      simp only [List.length_append, List.length_cons] at hlen
      omega
    simpa [htry, exitCode] using hgarbage
  | incomplete g kind lo hi body _ _ _ htry =>
    have hhead : g = [] → (g ++ syncByte :: kind :: lo :: hi :: body).head? = some 0xAA#8 := by rintro rfl; rfl
    simpa [htry, exitCode] using hhead
  | frame g kind lo hi payload c rest _ _ _ htry =>
    have hfive : 5 ≤ g.length + (payload.length + 5) := by omega
    simpa [htry, exitCode] using hfive
  | resync g kind lo hi payload c rest _ _ _ htry => simp [htry, exitCode]

/-- Settles O30: the bytes each waiting exit leaves, and the attempt on them. -/
theorem waitingAttemptsRepeat : Obligations.WaitingAttemptsRepeat := by
  intro s
  refine ⟨_, _, exec_decTry s, exec_decTry _, ?_⟩
  simp only [tryOnce_dWhy, tryOnce_buf]
  induction s.buf using attempt_cases with
  | short B _ htry => simp [htry, exitCode]
  | noSync B _ _ htry => simp [htry, exitCode, tryDecode_short]
  | shortSync g S _ _ hS htry =>
    have hagain : tryDecode (syncByte :: S) = ⟨.short, 0, none⟩ := tryDecode_short (Nat.succ_lt_succ hS)
    simp [htry, hagain, exitCode]
  | incomplete g kind lo hi body _ hbody hmissing htry =>
    have hagain : tryDecode (syncByte :: kind :: lo :: hi :: body) = ⟨.incomplete, 0, none⟩ :=
      tryDecode_incomplete (g := []) List.not_mem_nil hbody hmissing
    simp [htry, hagain, exitCode]
  | frame g kind lo hi payload c rest _ _ _ htry => simp [htry, exitCode]
  | resync g kind lo hi payload c rest _ _ _ htry => simp [htry, exitCode]

/-- Settles O31: the bytes each waiting exit leaves. -/
theorem headOfTheBufferAfterEachExit : Obligations.HeadOfTheBufferAfterEachExit := by
  intro s
  refine ⟨_, exec_decTry s, ?_⟩
  rw [tryOnce_dWhy, tryOnce_buf]
  induction s.buf using attempt_cases with
  | short B hlen htry => simpa [htry, exitCode] using hlen
  | noSync B _ _ htry => simp [htry, exitCode, condition]
  | shortSync g S _ _ hS htry => simpa [htry, exitCode, condition, minFrame] using hS
  | incomplete g kind lo hi body _ hbody _ htry => simpa [htry, exitCode, condition, minFrame] using hbody
  | frame g kind lo hi payload c rest _ _ _ htry => simp [htry, exitCode]
  | resync g kind lo hi payload c rest _ _ _ htry => simp [htry, exitCode]

/-- R111: an attempt that drops nothing waits, at exit SHORT or with a sync at the head and part of a frame behind it. -/
theorem exit_of_dropped_eq_zero {B : List Byte} (hdropped : (tryDecode B).dropped = 0) :
    (B.length < 5 ∧ (tryDecode B).exit = .short) ∨ (B.length < maxFrame ∧ (tryDecode B).exit = .incomplete) := by
  induction B using attempt_cases with
  | short B hlen htry => exact .inl ⟨hlen, by rw [htry]⟩
  | noSync B hlen _ htry => rw [htry] at hdropped; dsimp only at hdropped; omega
  | shortSync g S _ hlen hS htry =>
    rw [htry] at hdropped
    simp only [List.length_append, List.length_cons] at hlen hdropped
    omega
  | incomplete g kind lo hi body _ _ hmissing htry =>
    rw [htry] at hdropped
    have hmax := (lenOf lo hi).isLt
    refine .inr ⟨?_, by rw [htry]⟩
    simp only [List.length_append, List.length_cons, maxFrame] at hdropped ⊢
    omega
  | frame g kind lo hi payload c rest _ _ _ htry => rw [htry] at hdropped; dsimp only at hdropped; omega
  | resync g kind lo hi payload c rest _ _ _ htry => rw [htry] at hdropped; dsimp only at hdropped; omega

/-- R6, R174: a full buffer is longer than anything an attempt waits for. -/
theorem tryOnce_buf_lt_of_full {s : State} (hfull : s.cfg.bufCap = .finite s.buf.length) :
    (tryOnce s).buf.length < s.buf.length := by
  have hadmissible := s.cfg.bufCapOk
  have hlong : maxFrame ≤ s.buf.length := by simpa [hfull, BufCap.admissible] using hadmissible
  have hdropped : (tryDecode s.buf).dropped ≠ 0 := by
    intro hzero
    obtain ⟨hshort, _⟩ | ⟨hshort, _⟩ := exit_of_dropped_eq_zero hzero <;> simp only [maxFrame] at * <;> omega
  rw [tryOnce_buf, List.length_drop]
  simp only [maxFrame] at hlong
  omega

/-- Settles O38: the attempt makes room, and a push with room appends. -/
theorem aFullBufferMakesRoom : Obligations.AFullBufferMakesRoom := by
  intro s hfull
  have hless := tryOnce_buf_lt_of_full hfull
  refine ⟨_, exec_decTry s, hless, fun b => congrArg Host.Outcome.next (pushByte_of_not_full ?_ b)⟩
  rw [tryOnce_cfg, hfull]
  exact fun heq => hless.ne' (BufCap.finite.inj heq)

end Sys2Proof.Proofs
end

section
/-! The table of exits of R108, read off the buffer by offsets. -/

namespace Sys2Proof.Proofs

open Sys2Proof Sys2Proof.Machine

/-- R100: the table looks for the sync byte as the attempt does. -/
theorem findIdx?_eq_firstSync (bs : List Byte) : bs.findIdx? (fun b => b == 0xAA#8) = firstSync bs := by
  induction bs with
  | nil => rfl
  | cons b bs ih => simp [List.findIdx?_cons, firstSync, ih]

theorem findIdx?_append_cons {g : List Byte} (hg : syncByte ∉ g) (S : List Byte) :
    (g ++ syncByte :: S).findIdx? (fun b => b == 0xAA#8) = some g.length := by
  rw [findIdx?_eq_firstSync, firstSync_append_cons hg]

/-- R10: behind `g` an offset counts from the length of `g`. -/
theorem getD_append_length_add (g S : List Byte) (k : Nat) (b : Byte) : (g ++ S).getD (g.length + k) b = S.getD k b := by
  rw [List.getD_append_right _ _ _ _ (Nat.le_add_right _ _), Nat.add_sub_cancel_left]

theorem slice_append_length_add (g S : List Byte) (i j : Nat) :
    slice (g ++ S) (g.length + i) (g.length + j) = slice S i j := by
  simp [slice, List.take_append, List.drop_append]

/-- R108: the rows of the table for a candidate whose header is there. -/
theorem exitTable_of_header {g body : List Byte} (hg : syncByte ∉ g) (hbody : 1 ≤ body.length) (kind lo hi : Byte) :
    exitTable (g ++ syncByte :: kind :: lo :: hi :: body) =
      if body.length < (lenOf lo hi).toNat + 1 then (3#3, g.length)
      else if xorfold (kind :: lo :: hi :: body.take (lenOf lo hi).toNat) = body.getD (lenOf lo hi).toNat 0#8 then
        (4#3, g.length + (4 + (lenOf lo hi).toNat + 1))
      else (5#3, g.length + 1) := by
  have hlength : ((g ++ syncByte :: kind :: lo :: hi :: body).getD (g.length + 2) 0#8).toNat +
      256 * ((g ++ syncByte :: kind :: lo :: hi :: body).getD (g.length + 3) 0#8).toNat = (lenOf lo hi).toNat := by
    rw [getD_append_length_add, getD_append_length_add, lenOf_toNat]
    rfl
  have hcovered : slice (syncByte :: kind :: lo :: hi :: body) 1 (4 + (lenOf lo hi).toNat) =
      kind :: lo :: hi :: body.take (lenOf lo hi).toNat := by
    simp [slice, Nat.add_comm 4]
  have hsum : (syncByte :: kind :: lo :: hi :: body).getD (4 + (lenOf lo hi).toNat) 0#8 =
      body.getD (lenOf lo hi).toNat 0#8 := by
    simp [Nat.add_comm 4]
  have hrest : (g ++ syncByte :: kind :: lo :: hi :: body).length - g.length = body.length + 4 := by simp
  have hmissing : body.length + 4 < 4 + (lenOf lo hi).toNat + 1 ↔ body.length < (lenOf lo hi).toNat + 1 := by omega
  rw [exitTable, if_neg (by simp; omega), findIdx?_append_cons hg]
  dsimp only
  rw [hlength, hrest, if_neg (by omega), Nat.add_assoc g.length 4, slice_append_length_add, getD_append_length_add, hcovered,
    hsum]
  simp only [hmissing]

/-- R108: the table's row is the attempt's exit and drop count. -/
theorem exitTable_eq (B : List Byte) : exitTable B = (exitCode (tryDecode B).exit, (tryDecode B).dropped) := by
  induction B using attempt_cases with
  | short B hlen htry => simp [exitTable, htry, hlen, exitCode]
  | noSync B hlen hsync htry =>
    simp [exitTable, htry, Nat.not_lt.mpr hlen, findIdx?_eq_firstSync, firstSync_eq_none.mpr hsync, exitCode]
  | shortSync g S hg hlen hS htry =>
    rw [exitTable, if_neg (Nat.not_lt.mpr hlen), findIdx?_append_cons hg, htry]
    simp [exitCode, hS]
  | incomplete g kind lo hi body hg hbody hmissing htry =>
    rw [exitTable_of_header hg hbody, if_pos hmissing, htry]
    rfl
  | frame g kind lo hi payload c rest hg hlen hsum htry =>
    rw [exitTable_of_header hg (by simp; omega), if_neg (by simp; omega), ← hlen, List.take_left,
      if_pos (by simpa using hsum), htry, Nat.add_comm 4]
    rfl
  | resync g kind lo hi payload c rest hg hlen hsum htry =>
    rw [exitTable_of_header hg (by simp; omega), if_neg (by simp; omega), ← hlen, List.take_left,
      if_neg (by simpa using hsum), htry]
    rfl

/-- R105: a returned frame is the bytes at their offsets from the first sync. -/
theorem frame_of_firstSync {B : List Byte} {f : Frame} {i : Nat} (hframe : (tryDecode B).frame = some f)
    (hi : firstSync B = some i) :
    B[i + 1]? = some f.kind ∧ f.length = lenOf (B.getD (i + 2) 0#8) (B.getD (i + 3) 0#8) ∧
      f.payload = slice B (i + 4) (i + 4 + f.length.toNat) := by
  induction B using attempt_cases with
  | frame g kind lo hi payload c rest hg hlen _ htry =>
    obtain rfl : g.length = i := Option.some.inj ((firstSync_append_cons hg _).symm.trans hi)
    rw [htry] at hframe
    obtain rfl := Option.some.inj hframe
    refine ⟨by rw [List.getElem?_append_right (Nat.le_add_right _ 1), Nat.add_sub_cancel_left]; rfl, ?_, ?_⟩
    · rw [getD_append_length_add, getD_append_length_add]
      rfl
    · rw [Nat.add_assoc, slice_append_length_add]
      simp [slice, ← hlen, Nat.add_comm 4]
  | short _ _ htry | noSync _ _ _ htry | shortSync _ _ _ _ _ htry | incomplete _ _ _ _ _ _ _ _ htry
  | resync _ _ _ _ _ _ _ _ _ _ htry =>
    rw [htry] at hframe
    cases hframe

/-- R31: an attempt writes the decoder's registers, X_CODE and the model's index of free values alone. -/
theorem tryOnce_eq_update (s : State) :
    tryOnce s = { s with
      buf := (tryOnce s).buf, fValid := (tryOnce s).fValid, fKind := (tryOnce s).fKind, fLen := (tryOnce s).fLen
      fPayload := (tryOnce s).fPayload, dWhy := (tryOnce s).dWhy, xCode := 0#2, freeIdx := (tryOnce s).freeIdx } := by
  rw [← tryOnce_cfg s, ← tryOnce_csAcc s, ← tryOnce_tx s, ← tryOnce_trace s]
  rfl

/-- Settles O28: the row of the table is the attempt, and the frame an attempt returns is read off the buffer. -/
theorem tryFollowsTheExitTable : Obligations.TryFollowsTheExitTable := by
  intro s
  refine ⟨_, exec_decTry s, tryOnce_eq_update s, ?_⟩
  rw [exitTable_eq, tryOnce_fValid]
  refine ⟨tryOnce_dWhy s, tryOnce_buf s, ?_, fun i hi hvalid => ?_⟩
  · exact (tryDecode_frame s.buf).2.trans (exitCode_eq_frame_iff _).symm
  · obtain ⟨f, hframe⟩ := Option.isSome_iff_exists.mp hvalid
    rw [findIdx?_eq_firstSync] at hi
    obtain ⟨hkind, hlen, hpayload⟩ := frame_of_firstSync hframe hi
    rw [tryOnce_of_frame (s := s) (f := f) (by rw [← hframe])]
    exact ⟨hkind, by rw [hlen, lenOf_toNat], hpayload, (tryDecode_frame s.buf).1 f hframe⟩

end Sys2Proof.Proofs
end

section
/-! Several attempts in a row: back-to-back frames (R119), a corrupted frame before a valid one (R120), and the bounds of R177. -/

namespace Sys2Proof.Proofs

open Sys2Proof Sys2Proof.Machine

/-- Settles O34: each attempt returns the frame at the head, and a third finds an empty buffer. -/
theorem backToBackFramesComeInOrder : Obligations.BackToBackFramesComeInOrder := by
  intro s k1 k2 p1 p2 hfits1 hfits2 hbuf
  have hfirst : tryOnce s = frameExit s (encFrame k2 p2) k1 (BitVec.ofNat 16 p1.length) p1 :=
    tryOnce_encFrame (g := []) List.not_mem_nil hfits1 hbuf
  have hsecond : tryOnce (tryOnce s) = frameExit s [] k2 (BitVec.ofNat 16 p2.length) p2 := by
    rw [hfirst, tryOnce_encFrame (g := []) (r := []) List.not_mem_nil hfits2 (List.append_nil _).symm]
    rfl
  have hthird : tryDecode (tryOnce (tryOnce s)).buf = ⟨.short, 0, none⟩ := by rw [hsecond]; rfl
  have hfuel : s.buf.length + 1 = (p1.length + p2.length + 8) + 1 + 1 + 1 := by
    rw [hbuf]
    simp [encFrame]
    omega
  have hdrain : decDrain s = ⟨[⟨k1, BitVec.ofNat 16 p1.length, p1⟩, ⟨k2, BitVec.ofNat 16 p2.length, p2⟩],
      tryOnce (tryOnce (tryOnce s))⟩ := by
    rw [decDrain, hfuel, drainLoop_of_frame (by rw [hfirst]; rfl), drainLoop_of_frame (by rw [hsecond]; rfl),
      drainLoop_of_none (by rw [tryOnce_fValid, hthird]; rfl)]
    rfl
  refine ⟨_, exec_decTry s, hfirst, congrArg Host.Outcome.next hsecond, ?_⟩
  rw [hdrain, tryOnce_buf, tryOnce_dWhy, hthird, hsecond]
  exact ⟨rfl, rfl, rfl⟩

/-- R105, R177: a returned frame takes at least five bytes with it. -/
theorem dropped_of_frame {B : List Byte} {f : Frame} (hframe : (tryDecode B).frame = some f) :
    5 ≤ (tryDecode B).dropped := by
  induction B using attempt_cases with
  | frame g kind lo hi payload c rest _ _ _ htry => rw [htry]; dsimp only; omega
  | short _ _ htry | noSync _ _ _ htry | shortSync _ _ _ _ _ htry | incomplete _ _ _ _ _ _ _ _ htry
  | resync _ _ _ _ _ _ _ _ _ _ htry =>
    rw [htry] at hframe
    cases hframe

/-- R177: with more attempts than bytes a drain ends without a frame, and its frames had five bytes each. -/
theorem drainLoop_terminates {k : Nat} {s : State} (hfuel : s.buf.length < k) :
    5 * (drainLoop k s).frames.length ≤ s.buf.length ∧ (drainLoop k s).state.fValid = false := by
  induction k generalizing s with
  | zero => exact absurd hfuel (Nat.not_lt_zero _)
  | succ k ih =>
    cases hframe : (tryDecode s.buf).frame with
    | none =>
      have hinvalid : (tryOnce s).fValid = false := by rw [tryOnce_fValid, hframe]; rfl
      rw [drainLoop_of_none hinvalid]
      exact ⟨Nat.zero_le _, hinvalid⟩
    | some f =>
      have hdropped := dropped_of_frame hframe
      have hle := tryDecode_dropped_le s.buf
      have hbuf : (tryOnce s).buf.length = s.buf.length - (tryDecode s.buf).dropped := by simp
      obtain ⟨hcount, hend⟩ := ih (s := tryOnce s) (by omega)
      rw [drainLoop_of_frame (f := f) (by rw [readFrame_tryOnce, hframe]; rfl)]
      exact ⟨by rw [List.length_cons]; omega, hend⟩

/-- R177: attempts, each dropping a byte, come to one that drops nothing. -/
theorem attempts_settle (s : State) :
    ∃ k t, k ≤ s.buf.length ∧ runOps (List.replicate k .decTry) s = .next t ∧ (tryDecode t.buf).dropped = 0 := by
  induction hn : s.buf.length using Nat.strong_induction_on generalizing s with
  | _ n ih =>
    by_cases hzero : (tryDecode s.buf).dropped = 0
    · exact ⟨0, s, Nat.zero_le _, rfl, hzero⟩
    · have hle := tryDecode_dropped_le s.buf
      have hless : (tryOnce s).buf.length < n := by rw [tryOnce_buf, List.length_drop]; omega
      obtain ⟨k, t, hk, hrun, hsettled⟩ := ih _ hless (tryOnce s) rfl
      exact ⟨k + 1, t, hk.trans_lt hless, hrun, hsettled⟩

/-- Settles O39: five bytes a frame bound the drain, one byte an attempt bounds the attempts. -/
theorem drainTerminates : Obligations.DrainTerminates := by
  intro s
  obtain ⟨hcount, hend⟩ := drainLoop_terminates (Nat.lt_succ_self s.buf.length)
  refine ⟨(Nat.le_div_iff_mul_le (by decide)).mpr (by rw [Nat.mul_comm]; exact hcount), hend, ?_⟩
  obtain ⟨k, t, hk, hrun, hsettled⟩ := attempts_settle s
  refine ⟨k, t, _, hk, hrun, exec_decTry t, by rw [tryOnce_buf, hsettled, List.drop_zero], ?_⟩
  rw [tryOnce_dWhy]
  obtain ⟨_, hexit⟩ | ⟨_, hexit⟩ := exit_of_dropped_eq_zero hsettled
  · exact .inl (by rw [hexit]; rfl)
  · exact .inr (by rw [hexit]; rfl)

/-- R106, R120: a frame with a wrong checksum byte, at the head of BUF, costs its sync byte. -/
theorem framelessExit_of_corrupted {s : State} {payload rest : List Byte} {kind c : Byte} (hfits : payload.length ≤ maxPayload)
    (hsum : c ≠ xorfold (coveredBytes kind payload)) (hbuf : s.buf = wireFrame kind payload c ++ rest) :
    FramelessExit s (tryOnce s) (s.buf.drop 1) 5#3 := by
  have hattempt := tryDecode_wireFrame (g := []) List.not_mem_nil hfits kind c rest
  rw [if_neg hsum.symm, List.nil_append, ← hbuf] at hattempt
  exact framelessExit_of_none hattempt

/-- Vector D14: a first frame with a wrong checksum byte whose payload begins like a frame of four payload bytes, then a valid
frame. -/
def swallowingState : State :=
  { State.reset with
    buf := wireFrame 0x01#8 [0xAA#8, 0x07#8, 0x04#8, 0x00#8, 0x00#8, 0x00#8] 0xA8#8 ++ encFrame 0x01#8 [] }

/-- A first frame with a wrong checksum byte whose payload begins like a frame of 65535 payload bytes, then a valid frame. -/
def waitingState : State :=
  { State.reset with buf := wireFrame 0x01#8 [0xAA#8, 0x00#8, 0xFF#8, 0xFF#8] 0x00#8 ++ encFrame 0x81#8 [] }

/-- R120: the first attempt on `waitingState` drops the sync byte, and every further one waits for the candidate in the payload. -/
theorem waitingState_waits (k : Nat) :
    ∃ u, runOps (List.replicate (k + 1) .decTry) waitingState = .next u ∧ u.fValid = false := by
  cases k with
  | zero => exact ⟨_, rfl, by decide⟩
  | succ k =>
    have hattempt : tryDecode (tryOnce waitingState).buf = ⟨.incomplete, 3, none⟩ := by decide
    obtain ⟨u, hrun, hexit⟩ := runOps_replicate_decTry hattempt (by decide) k
    exact ⟨u, hrun, by rw [hexit]⟩

/-- Settles O35: the corrupted frame costs its sync byte; what is left of it is garbage without sync, or holds the candidate of
`swallowingState` or of `waitingState`. -/
theorem resyncAfterACorruptedFrame : Obligations.ResyncAfterACorruptedFrame := by
  refine ⟨?_, ?_, ?_⟩
  · intro s k1 k2 c p1 p2 hfits1 hfits2 hsum hbuf
    have hexit := framelessExit_of_corrupted hfits1 hsum hbuf
    refine ⟨_, exec_decTry s, hexit, fun hsync => congrArg Host.Outcome.next (tryOnce_encFrame hsync hfits2 ?_)⟩
    have hleft : (tryOnce s).buf = s.buf.drop 1 := congrArg State.buf hexit
    rw [hleft, hbuf, List.append_nil]
    rfl
  · exact ⟨swallowingState, 0x01#8, 0x01#8, 0xA8#8, [0xAA#8, 0x07#8, 0x04#8, 0x00#8, 0x00#8, 0x00#8], [], by decide,
      by decide, by decide, rfl, _, _, _, rfl, rfl, rfl, by decide⟩
  · exact ⟨waitingState, 0x01#8, 0x81#8, 0x00#8, [0xAA#8, 0x00#8, 0xFF#8, 0xFF#8], [], by decide, by decide, by decide, rfl,
      waitingState_waits⟩

end Sys2Proof.Proofs
end

section
/-! The decoder's phases (R28): the walk goes from phase to phase as far as the buffer allows, and leaves by DEC_TRY's exit. -/

namespace Sys2Proof.Proofs

open Sys2Proof Sys2Proof.Machine

theorem walkRun_of_idle (B : List Byte) (k : Nat) {w : Walk} (hidle : w.phase = .idle) : walkRun B k w = w := by
  induction k with
  | zero => rfl
  | succ k ih =>
    have hstep : walkStep B w = w := by simp [walkStep, hidle]
    rw [walkRun, hstep, ih]

/-- R28: a phase that leaves ends the walk. -/
theorem walkRun_of_leave {B : List Byte} {w w' : Walk} {a : Attempt} (hstep : walkStep B w = walkLeave a w') (k : Nat) :
    walkRun B (k + 1) w = walkLeave a w' := by
  rw [walkRun, hstep, walkRun_of_idle B k rfl]

/-- R28: five bytes or more pass the gate. -/
theorem walkRun_gate {B : List Byte} (hlen : 5 ≤ B.length) (k : Nat) :
    walkRun B (k + 1) walkStart = walkRun B k { walkStart with phase := .hunt } := by
  have hstep : walkStep B walkStart = { walkStart with phase := .hunt } := if_neg (Nat.not_lt.mpr hlen)
  rw [walkRun, hstep]

/-- R28: the hunt finds the first sync. -/
theorem walkRun_hunt {g S : List Byte} (hg : syncByte ∉ g) (hlen : 5 ≤ (g ++ syncByte :: S).length) (k : Nat) :
    walkRun (g ++ syncByte :: S) (k + 2) walkStart =
      walkRun (g ++ syncByte :: S) k { walkStart with phase := .regate, scan := g.length } := by
  rw [walkRun_gate hlen, walkRun]
  simp only [walkStep, firstSync_append_cons hg]

/-- R28: the walk with the header fields of the candidate at offset `i` read. -/
def walkOnCandidate (phase : Phase) (i : Nat) (kind lo hi : Byte) : Walk :=
  ⟨phase, i, kind, lenOf lo hi, totalOf (lenOf lo hi), 0#8, none⟩

/-- R28: where the header and one byte more are there, its fields are read. -/
theorem walkRun_header {g body : List Byte} (hg : syncByte ∉ g) (hbody : 1 ≤ body.length) (kind lo hi : Byte) (k : Nat) :
    walkRun (g ++ syncByte :: kind :: lo :: hi :: body) (k + 4) walkStart =
      walkRun (g ++ syncByte :: kind :: lo :: hi :: body) k (walkOnCandidate .fill g.length kind lo hi) := by
  have hregate : walkStep (g ++ syncByte :: kind :: lo :: hi :: body)
      { walkStart with phase := .regate, scan := g.length } = { walkStart with phase := .hdr, scan := g.length } :=
    if_neg (by simp [minFrame]; omega)
  have hhdr : walkStep (g ++ syncByte :: kind :: lo :: hi :: body) { walkStart with phase := .hdr, scan := g.length } =
      walkOnCandidate .fill g.length kind lo hi := by
    simp [walkStep, walkStart, walkOnCandidate]
  rw [walkRun_hunt hg (by simp; omega), walkRun, hregate, walkRun, hhdr]

/-- R28: where the candidate is whole, CHK folds its covered bytes and decides as DEC_TRY does. -/
theorem walkStep_chk {g payload : List Byte} {kind lo hi : Byte} (hg : syncByte ∉ g)
    (hlen : payload.length = (lenOf lo hi).toNat) (c : Byte) (rest : List Byte) :
    walkStep (g ++ syncByte :: kind :: lo :: hi :: (payload ++ c :: rest)) (walkOnCandidate .chk g.length kind lo hi) =
      walkLeave (tryDecode (g ++ syncByte :: kind :: lo :: hi :: (payload ++ c :: rest)))
        (walkFold (g ++ syncByte :: kind :: lo :: hi :: (payload ++ c :: rest))
          (walkOnCandidate .chk g.length kind lo hi)) := by
  have htransmitted : (g ++ syncByte :: kind :: lo :: hi :: (payload ++ c :: rest))[g.length + 4 + payload.length]? =
      some c := by
    rw [Nat.add_assoc, List.getElem?_append_right (Nat.le_add_right _ _), Nat.add_sub_cancel_left]
    simp [Nat.add_comm 4]
  have hcovered : slice (g ++ syncByte :: kind :: lo :: hi :: (payload ++ c :: rest)) (g.length + 1)
      (g.length + 4 + payload.length) = kind :: lo :: hi :: payload := by
    rw [Nat.add_assoc, slice_append_length_add]
    simp [slice, Nat.add_comm 4]
  have hpayload : slice (g ++ syncByte :: kind :: lo :: hi :: (payload ++ c :: rest)) (g.length + 4)
      (g.length + 4 + payload.length) = payload := by
    rw [Nat.add_assoc, slice_append_length_add]
    simp [slice, Nat.add_comm 4]
  have htotal : totalOf (lenOf lo hi) = payload.length + 5 := by
    simp only [totalOf, hdrLen, csumLen, hlen]
    omega
  simp only [walkStep, walkOnCandidate, walkFold, ← hlen, htransmitted, hcovered, hpayload, htotal, tryDecode_complete hg hlen]
  split <;> rfl

/-- R28: where the candidate is whole, the walk passes FILL and leaves from CHK. -/
theorem walkRun_complete {g payload : List Byte} {kind lo hi : Byte} (hg : syncByte ∉ g)
    (hlen : payload.length = (lenOf lo hi).toNat) (c : Byte) (rest : List Byte) :
    ∃ w, walkRun (g ++ syncByte :: kind :: lo :: hi :: (payload ++ c :: rest)) 6 walkStart =
      walkLeave (tryDecode (g ++ syncByte :: kind :: lo :: hi :: (payload ++ c :: rest))) w := by
  have hfill : walkStep (g ++ syncByte :: kind :: lo :: hi :: (payload ++ c :: rest))
      (walkOnCandidate .fill g.length kind lo hi) = walkOnCandidate .chk g.length kind lo hi :=
    if_neg (by simp [walkOnCandidate, totalOf, hdrLen, csumLen]; omega)
  rw [walkRun_header hg (by simp; omega), walkRun, hfill, walkRun_of_leave (walkStep_chk hg hlen c rest)]
  exact ⟨_, rfl⟩

/-- R28, R107: within six phases the walk leaves with DEC_TRY's attempt. -/
theorem walkRun_walkStart (B : List Byte) : ∃ w, walkRun B 6 walkStart = walkLeave (tryDecode B) w := by
  induction B using attempt_cases with
  | short B hlen htry =>
    have hstep : walkStep B walkStart = walkLeave ⟨.short, 0, none⟩ walkStart := if_pos hlen
    rw [htry, walkRun_of_leave hstep]
    exact ⟨_, rfl⟩
  | noSync B hlen hsync htry =>
    have hstep : walkStep B { walkStart with phase := .hunt } =
        walkLeave ⟨.noSync, B.length, none⟩ { walkStart with phase := .hunt } := by
      simp only [walkStep, firstSync_eq_none.mpr hsync]
    rw [htry, walkRun_gate hlen, walkRun_of_leave hstep]
    exact ⟨_, rfl⟩
  | shortSync g S hg hlen hS htry =>
    have hstep : walkStep (g ++ syncByte :: S) { walkStart with phase := .regate, scan := g.length } =
        walkLeave ⟨.shortSync, g.length, none⟩ { walkStart with phase := .regate, scan := g.length } :=
      if_pos (by simp [minFrame]; omega)
    rw [htry, walkRun_hunt hg hlen, walkRun_of_leave hstep]
    exact ⟨_, rfl⟩
  | incomplete g kind lo hi body hg hbody hmissing htry =>
    have hstep : walkStep (g ++ syncByte :: kind :: lo :: hi :: body) (walkOnCandidate .fill g.length kind lo hi) =
        walkLeave ⟨.incomplete, g.length, none⟩ (walkOnCandidate .fill g.length kind lo hi) :=
      if_pos (by simp [walkOnCandidate, totalOf, hdrLen, csumLen]; omega)
    rw [htry, walkRun_header hg hbody, walkRun_of_leave hstep]
    exact ⟨_, rfl⟩
  | frame g kind lo hi payload c rest hg hlen _ _ => exact walkRun_complete hg hlen c rest
  | resync g kind lo hi payload c rest hg hlen _ _ => exact walkRun_complete hg hlen c rest

/-- Settles O37: the walk has left with the attempt that DEC_TRY writes. -/
theorem phaseWalkRefinesTry : Obligations.PhaseWalkRefinesTry := by
  intro s
  obtain ⟨w, hwalk⟩ := walkRun_walkStart s.buf
  rw [hwalk]
  refine ⟨_, _, rfl, rfl, exec_decTry s, tryOnce_dWhy s, tryOnce_buf s, fun f => ?_⟩
  rw [readFrame_tryOnce]
  cases (tryDecode s.buf).frame <;> simp

end Sys2Proof.Proofs
end

section
/-! The exceptions (60_exceptions.md): the code every operation of the command port ends with (R138), that an operation which
raises writes nothing else (R148), and what the step does where nothing can be issued (R156, R66). -/

namespace Sys2Proof.Proofs

open Sys2Proof Sys2Proof.Machine

/-- Settles O43: OPSEL 6 and 7 decode to the reserved codes, and each raises BAD_OP. -/
theorem reservedCodesWriteBadOp : Obligations.ReservedCodesWriteBadOp :=
  ⟨fun _ => ⟨rfl, rfl⟩, fun s => ⟨exec_reserved6 s, exec_reserved7 s⟩⟩

/-- R156: the idle block holds its state. -/
theorem step_eq_next_of_fetch_idle {s : State} (hfetch : fetch s = .idle) : step s = .next s := by
  simp [step, hfetch]

theorem step_eq_refused_of_fetch_stop {s : State} {r : Refusal} (hfetch : fetch s = .stop r) : step s = .refused r := by
  simp [step, hfetch]

theorem fetch_eq_idle_of_trace_nil {s : State} (htrace : s.trace = []) : fetch s = .idle := by
  simp [fetch, htrace, decode]

theorem fetch_eq_stop_of_notARecord {s : State} {b : Byte} (hdecode : decode s.trace = .bad (.notARecord b)) :
    fetch s = .stop (.notARecord b) := by
  simp [fetch, hdecode]

theorem fetch_eq_stop_of_truncated {s : State} (hdecode : decode s.trace = .bad .truncated) :
    fetch s = .stop .truncatedRecord := by
  simp [fetch, hdecode]

/-- R66: an operation the host cannot present is not fetched. -/
theorem fetch_eq_stop_of_not_presentable {s : State} {i : Instr} {rest : List Byte}
    (hdecode : decode s.trace = .ok i rest) (hpresentable : i.presentable s.cfg = false) :
    fetch s = .stop .countNotPresentable := by
  simp [fetch, hdecode, hpresentable]

/-- R66: ENC's count is a `PLEN_W`-bit number. -/
theorem enc_not_presentable {c : Config} {payload : List Byte} (hcount : 2 ^ c.plenW ≤ payload.length) (kind : Byte) :
    (Instr.enc kind payload).presentable c = false :=
  decide_eq_false (Nat.not_lt.mpr hcount)

/-- Settles O6: the step follows the fetch, which is idle without records and otherwise stops by the reason's name. -/
theorem stepWithoutAnOperation : Obligations.StepWithoutAnOperation :=
  ⟨fun _ htrace => step_eq_next_of_fetch_idle (fetch_eq_idle_of_trace_nil htrace),
    fun _ _ hdecode => step_eq_refused_of_fetch_stop (fetch_eq_stop_of_notARecord hdecode),
    fun _ hdecode => step_eq_refused_of_fetch_stop (fetch_eq_stop_of_truncated hdecode),
    fun _ kind _ _ hdecode hcount =>
      step_eq_refused_of_fetch_stop (fetch_eq_stop_of_not_presentable hdecode (enc_not_presentable hcount kind))⟩

/-- R138: the code an operation of the command port ends with, read off its operands and the state before it
(`exec_outcomeCode`). -/
def outcomeCode (s : State) : Instr → BitVec 2
  | .enc _ payload => if 65535 < payload.length then xEncTooLong else xOk
  | .decPush _ => if s.cfg.bufCap = .finite s.buf.length then xRxFull else xOk
  | .reserved6 | .reserved7 => xBadOp
  | _ => xOk

theorem outcomeCode_eq_encTooLong_iff (s : State) (i : Instr) :
    outcomeCode s i = xEncTooLong ↔ ∃ kind payload, i = .enc kind payload ∧ 65535 < payload.length := by
  cases i with
  | enc kind payload => by_cases hlong : 65535 < payload.length <;> simp [outcomeCode, hlong, xOk, xEncTooLong]
  | decPush b =>
    by_cases hfull : s.cfg.bufCap = .finite s.buf.length <;> simp [outcomeCode, hfull, xOk, xRxFull, xEncTooLong]
  | _ => simp [outcomeCode, xOk, xBadOp, xEncTooLong]

theorem outcomeCode_eq_rxFull_iff (s : State) (i : Instr) :
    outcomeCode s i = xRxFull ↔ ∃ b, i = .decPush b ∧ s.cfg.bufCap = .finite s.buf.length := by
  cases i with
  | enc kind payload => by_cases hlong : 65535 < payload.length <;> simp [outcomeCode, hlong, xOk, xEncTooLong, xRxFull]
  | decPush b => by_cases hfull : s.cfg.bufCap = .finite s.buf.length <;> simp [outcomeCode, hfull, xOk, xRxFull]
  | _ => simp [outcomeCode, xOk, xBadOp, xRxFull]

theorem outcomeCode_eq_badOp_iff (s : State) (i : Instr) :
    outcomeCode s i = xBadOp ↔ i = .reserved6 ∨ i = .reserved7 := by
  cases i with
  | enc kind payload => by_cases hlong : 65535 < payload.length <;> simp [outcomeCode, hlong, xOk, xEncTooLong, xBadOp]
  | decPush b => by_cases hfull : s.cfg.bufCap = .finite s.buf.length <;> simp [outcomeCode, hfull, xOk, xRxFull, xBadOp]
  | _ => simp [outcomeCode, xOk, xBadOp]

/-- R12, R148: an operation of the command port answers a next state with the code of its outcome, and either completes or
raises that code. -/
theorem exec_outcomeCode {i : Instr} (s : State) (hop : isOperation i = true) :
    ∃ t, exec i s = .next t ∧ t.xCode = outcomeCode s i ∧ (t.xCode = xOk ∨ t = raise t.xCode s) := by
  induction i using exec_cases with
  | reset | csClr | csFold | decTry => exact ⟨_, rfl, rfl, .inl rfl⟩
  | reserved6 | reserved7 => exact ⟨_, rfl, rfl, .inr rfl⟩
  | enc kind payload =>
    by_cases hlong : 65535 < payload.length
    · exact ⟨_, exec_enc_of_long hlong kind s, (if_pos hlong).symm, .inr rfl⟩
    · exact ⟨_, exec_enc_of_fits (Nat.le_of_not_lt hlong) kind s, (if_neg hlong).symm, .inl rfl⟩
  | decPush b =>
    rw [exec_decPush]
    by_cases hfull : s.cfg.bufCap = .finite s.buf.length
    · rw [pushByte_of_full hfull]
      exact ⟨_, rfl, (if_pos hfull).symm, .inr rfl⟩
    · rw [pushByte_of_not_full hfull]
      exact ⟨_, rfl, (if_neg hfull).symm, .inl rfl⟩
  | frameRow i kind payload c hrow _ => rw [hrow] at hop; cases hop

/-- Settles O49: an operation that did not complete has raised, and `raise` writes X_CODE alone. -/
theorem errorsArePrecise : Obligations.ErrorsArePrecise := by
  intro i s t hop hexec hcode
  obtain ⟨u, hu, -, houtcome⟩ := exec_outcomeCode s hop
  cases hexec.symm.trans hu
  exact houtcome.resolve_left hcode

/-- Settles O48: the next state holds the operation's outcome code, each code has its one cause, and errors are precise. -/
theorem everyOutcomeHasItsCode : Obligations.EveryOutcomeHasItsCode := by
  intro i s hop
  obtain ⟨t, hexec, hcode, -⟩ := exec_outcomeCode s hop
  refine ⟨t, hexec, ?_, ?_, ?_, errorsArePrecise i s t hop hexec⟩ <;> rw [hcode]
  · exact outcomeCode_eq_encTooLong_iff s i
  · exact outcomeCode_eq_rxFull_iff s i
  · exact outcomeCode_eq_badOp_iff s i

end Sys2Proof.Proofs
end

section
/-! The reset state, reached by RESET (R158) and held at the launch of a run (R179). -/

namespace Sys2Proof.Proofs

open Sys2Proof Sys2Proof.Machine

/-- Settles O41: the record's round trip, and `resetBlock` as RESET's effect, whose frame registers and free index are left
open. -/
theorem resetPutsTheInitialState : Obligations.ResetPutsTheInitialState :=
  ⟨fun rest => decodeEncodeRoundTrip .reset rest rfl, fun s => ⟨resetBlock s, exec_reset s, rfl⟩⟩

/-- Settles O42: each is a field of the launch state as R30 gives it. -/
theorem runsStartInTheResetState : Obligations.RunsStartInTheResetState :=
  ⟨rfl, rfl, rfl, rfl, rfl, rfl⟩

end Sys2Proof.Proofs
end

section
/-! The model's own fields (log entries 3, 6 and 8): no instruction writes the parameters or the host's records, the index of
free values moves by at most one, and BUF, X_CODE, F_KIND, F_LEN and F_PAYLOAD do not depend on the other registers. -/

namespace Sys2Proof.Proofs

open Sys2Proof Sys2Proof.Machine

/-! The decoder's operations neither read nor write the host's records (log entry 3). -/

theorem pushByte_of_trace (b : Byte) (s : State) (records : List Byte) :
    pushByte b { s with trace := records } = { pushByte b s with trace := records } := by
  have hfull : bufFull { s with trace := records } = bufFull s := rfl
  unfold pushByte
  rw [hfull]
  split <;> rfl

theorem decAppend_of_trace (bs : List Byte) (s : State) (records : List Byte) :
    decAppend bs { s with trace := records } = { decAppend bs s with trace := records } := by
  induction bs generalizing s with
  | nil => rfl
  | cons b bs ih =>
    have hfull : bufFull { s with trace := records } = bufFull s := rfl
    rw [decAppend, decAppend, hfull, pushByte_of_trace, ih]
    split <;> rfl

theorem tryOnce_of_trace (s : State) (records : List Byte) :
    tryOnce { s with trace := records } = { tryOnce s with trace := records } := by
  unfold tryOnce writeAttempt
  dsimp only
  split <;> rfl

theorem receiveFrame_of_trace (bs : List Byte) (s : State) (records : List Byte) :
    receiveFrame bs { s with trace := records } = { receiveFrame bs s with trace := records } := by
  unfold receiveFrame
  rw [decAppend_of_trace, tryOnce_of_trace]
  dsimp only
  split <;> rfl

/-- R68: no instruction reads or writes the host's records. -/
theorem exec_of_trace {i : Instr} {s t : State} (hexec : exec i s = .next t) (records : List Byte) :
    exec i { s with trace := records } = .next { t with trace := records } := by
  induction i using exec_cases with
  | reset | csClr | csFold | reserved6 | reserved7 => cases hexec; rfl
  | enc =>
    rw [exec_enc] at hexec ⊢
    cases hexec
    rfl
  | decPush b => cases hexec; exact congrArg Host.Outcome.next (pushByte_of_trace b s records)
  | decTry => cases hexec; exact congrArg Host.Outcome.next (tryOnce_of_trace s records)
  | frameRow i kind payload c _ hrow =>
    rw [hrow] at hexec ⊢
    cases hexec
    rw [receiveFrame_of_trace]

theorem exec_trace {i : Instr} {s t : State} (hexec : exec i s = .next t) : t.trace = s.trace := by
  have hsame : Host.Outcome.next t = .next { t with trace := s.trace } := hexec.symm.trans (exec_of_trace hexec s.trace)
  injection hsame with hsame
  rw [hsame]

/-- R17: an attempt that returns a frame uses no free value, any other uses one. -/
theorem tryOnce_freeIdx (s : State) : (tryOnce s).freeIdx = s.freeIdx ∨ (tryOnce s).freeIdx = s.freeIdx + 1 := by
  unfold tryOnce writeAttempt
  split
  · exact .inl rfl
  · exact .inr rfl

theorem receiveFrame_freeIdx (bs : List Byte) (s : State) :
    (receiveFrame bs s).freeIdx = s.freeIdx ∨ (receiveFrame bs s).freeIdx = s.freeIdx + 1 := by
  unfold receiveFrame
  split
  · exact .inl (decAppend_freeIdx bs s)
  · rw [← decAppend_freeIdx bs s]
    exact tryOnce_freeIdx _

/-- Log entry 8: an instruction uses at most one index of free values. -/
theorem exec_freeIdx {i : Instr} {s t : State} (hexec : exec i s = .next t) :
    t.freeIdx = s.freeIdx ∨ t.freeIdx = s.freeIdx + 1 := by
  induction i using exec_cases with
  | reset => cases hexec; exact .inr rfl
  | csClr | csFold | reserved6 | reserved7 => cases hexec; exact .inl rfl
  | enc => rw [exec_enc] at hexec; cases hexec; exact .inl rfl
  | decPush b => cases hexec; exact .inl (pushByte_freeIdx b s)
  | decTry => cases hexec; exact tryOnce_freeIdx s
  | frameRow i kind payload c _ hrow =>
    rw [hrow] at hexec
    cases hexec
    exact receiveFrame_freeIdx _ s

/-- CS_ACC, TX and the flags reach nothing but CS_ACC, TX, F_VALID and D_WHY: with them changed beforehand an instruction leaves
everything else as it would have. -/
theorem exec_of_unread {i : Instr} {s t : State} (hexec : exec i s = .next t) (a : Byte) (old : List Byte) (v : Bool)
    (w : BitVec 3) (x : BitVec 2) :
    ∃ a' old' v' w', exec i { s with csAcc := a, tx := old, fValid := v, dWhy := w, xCode := x } =
      .next { t with csAcc := a', tx := old', fValid := v', dWhy := w' } := by
  induction i using exec_cases with
  | reset | csClr | csFold | reserved6 | reserved7 => cases hexec; exact ⟨_, _, _, _, rfl⟩
  | enc kind payload =>
    rw [exec_enc] at hexec
    cases hexec
    exact ⟨_, _, _, _, exec_enc kind payload _⟩
  | decPush b =>
    cases hexec
    have hpush : pushByte b { s with csAcc := a, tx := old, fValid := v, dWhy := w, xCode := x } =
        { pushByte b s with csAcc := a, tx := old, fValid := v, dWhy := w } := by
      rw [pushByte_of_xCode { s with csAcc := a, tx := old, fValid := v, dWhy := w }, pushByte_of_unread]
    exact ⟨_, _, _, _, congrArg Host.Outcome.next hpush⟩
  | decTry => cases hexec; exact ⟨_, _, _, _, congrArg Host.Outcome.next (tryOnce_of_unread s a old v w x)⟩
  | frameRow i kind payload c _ hrow =>
    rw [hrow] at hexec ⊢
    cases hexec
    have hacc := receiveFrame_of_csAcc_tx { s with fValid := v, dWhy := w, xCode := x } a old (wireFrame kind payload c)
    obtain hflags | ⟨hrefused, hflags⟩ := receiveFrame_of_flags s v w x (bs := wireFrame kind payload c) (by simp [wireFrame])
    · rw [hflags] at hacc
      exact ⟨_, _, _, _, congrArg Host.Outcome.next hacc⟩
    · rw [hflags, ← hrefused] at hacc
      exact ⟨_, _, _, _, congrArg Host.Outcome.next hacc⟩

/-- Settles O58: the run with the registers and the records changed is the run from `s`, but for CS_ACC, TX, F_VALID, D_WHY
and the records (`exec_of_unread`, `exec_of_trace`). -/
theorem theModelsOwnFieldsStayApart : Obligations.TheModelsOwnFieldsStayApart := by
  intro i s a old records v w x
  obtain ⟨t, hexec, _, _⟩ := exec_tx i s
  obtain ⟨a', old', v', w', hunread⟩ := exec_of_unread hexec a old v w x
  exact ⟨t, _, hexec, exec_of_trace hunread records, (exec_keeps_capacity hexec).1, exec_trace hexec, exec_freeIdx hexec,
    rfl, rfl, rfl, rfl, rfl, rfl, rfl⟩

end Sys2Proof.Proofs
end
